-- ==== Sys2Proof/Word.lean ====
section
/-! DEFINITION. The widths of DESRT-CORE (00_scope.md rule R7: constants, not parameters), as fixed-width
bit vectors, and the index of a round. A BitVector of width `w` held in a register is the number whose most
significant bit is index 0, DES bit 1 (rules R9 and R10); Lean's `BitVec.getMsbD b i` is therefore the
specification's `b[i]`, and `BitVec.getLsbD v j` is register bit `j`. -/

namespace Sys2Proof

/-- A 32-bit bus word (R71) or command word (R110). -/
abbrev Word := BitVec 32

/-- A 64-bit block, key, operand or result register (R7, R42 to R48). -/
abbrev Block := BitVec 64

/-- A Feistel half-block, `L` or `R` (R7, R54). -/
abbrev HalfBlock := BitVec 32

/-- A round subkey (R7, R49). -/
abbrev Subkey := BitVec 48

/-- A key-schedule half, `C` or `D` (R7, R54). -/
abbrev KeyHalf := BitVec 28

/-- A Hamming distance register: 7 bits, `HD_LAST`, `MIN`, `MAX` (R52, R53). -/
abbrev Distance := BitVec 7

/-- The index of a round, counted from 0: `r` stands for the specification's round `r + 1`, so that bit `r` of
`TVALID` is the specification's bit `(r + 1) - 1` (R40). -/
abbrev Round := Fin 16

end Sys2Proof
end

