-- ==== Sys2Proof/Config.lean ====
section
/-! DEFINITION. What the specification leaves open: the parameter BASE_ADDR (00_scope.md rule R8) and the values
drawn "under no law" (10_state.md rule R56, 70_reset_and_hazards.md rule R342; 93_implementation_defined.md U1 to
U6). Nothing here has a body that Lean can evaluate. -/

namespace Sys2Proof.Config

/-- DESIGN CHOICE (log entry 1), safe. The `n`-th free value of a run: a 64-bit value no rule constrains. State's
field `draws` says which one is drawn next. -/
opaque freeValue : Nat → Block

/-- The number of the 4 KiB page the platform places the register window at (R8; 92_eei_decisions.md D38: OPEN). -/
opaque basePage : Nat

/-- `BASE_ADDR` of the machine right after reset: 4 KiB aligned, otherwise not fixed (R8). -/
def baseAddr : Nat := 4096 * basePage

end Sys2Proof.Config
end

