-- ==== Sys2Proof/Machine/State.lean ====
section
/-! DEFINITION. The state of one DESRT-CORE engine and its bus (10_state.md), as plain data, and the state right
after reset (rule R56). Registers are named as in the specification. -/

namespace Sys2Proof.Machine

/-- Why an access or a step stops. -/
inductive Fault where
  /-- A bus error (20_memory.md rules R72 to R74): an access of `width` bytes at window offset `off` that is not a word, not
  aligned or not mapped. Raised by the access operations `memRead` and `memWrite`. Safe: R74 makes it a fault of the access
  that the host sees while the engine goes on, so a step answers it to the host (`Response.busError`) and does not stop. -/
  | busError (width off : Nat)
  deriving DecidableEq, Repr

/-- Why a command has no meaning here. -/
inductive Refusal where
  /-- The command of this mnemonic has no meaning yet. Raised by `exec` alone, by no arm of the finished model. Safe. -/
  | notModelled (mnemonic : String)
  deriving DecidableEq, Repr

/-- STATUS.ERR: the result code of the last completed command (60_exceptions.md rule R301). Codes 7 to 15 are never
produced, and this type has none. -/
inductive ErrCode where
  | none
  | illegalCmd
  | outOfRange
  | lengthMismatch
  | noBaseline
  | noTrace
  | accOverflow
  deriving DecidableEq, Repr

/-- STATUS.FSTATE: the 18 states of the 16-round controller (R38, 43_feistel.md rule R243). `round r` is ROUND_(r+1). -/
inductive CtrlState where
  | initial
  | round (r : Round)
  | final
  deriving DecidableEq, Repr

/-- STEP: the engine's position within the latched command's steps (R54, 70_reset_and_hazards.md rule R345). `first` is
STEP = 1, `round r` is STEP = r + 2, the step that performs ROUND_(r+1), and `last` is STEP = 18, which performs FINAL. -/
inductive StepPos where
  | idle
  | first
  | round (r : Round)
  | last
  deriving DecidableEq, Repr

/-- The per-round analyzer accumulators (R53): SUM, COUNT, MIN and MAX of one round. -/
structure Acc where
  sum   : BitVec 64
  count : BitVec 32
  min   : Distance
  max   : Distance
  deriving DecidableEq, Repr

/-- An accumulator with no sample: SUM = COUNT = MAX = 0 and MIN = 127 (R53, R56). -/
def Acc.empty : Acc := { sum := 0, count := 0, min := 127, max := 0 }

/-- What one bus access answers to the host. -/
inductive Response where
  /-- A read's data word (R80). -/
  | data (v : Word)
  /-- A write was taken; it may have been ignored (R81, R84). -/
  | done
  /-- The access is a bus error; a read returns no data (R74). -/
  | busError
  /-- DEDUCED (log entry 6), safe. The address lies outside this engine's window, so the access is not one to this
  engine (R70). -/
  | notAddressed
  deriving DecidableEq, Repr

/-- One atomic event of a run of the system (R345): an engine step, a host bus access, or a reset. `wait` and `skipIfErr`
are the host's control flow, each a host access to STATUS (30_encoding.md rule R130, 70_reset_and_hazards.md rule R335). -/
inductive Event where
  /-- The engine takes a step (R345). -/
  | engine
  /-- The host reads `width` bytes at bus address `addr` (20_memory.md rule R80). -/
  | read (width addr : Nat)
  /-- The host writes the word `v`, with an access of `width` bytes, at bus address `addr` (R81). -/
  | write (width addr : Nat) (v : Word)
  /-- WAIT: the host reads STATUS and does so again for as long as BUSY reads 1 (R130). -/
  | wait
  /-- The host reads STATUS and skips its next `n` events if ERR reads other than 0 (R335). -/
  | skipIfErr (n : Nat)
  /-- The external reset input is asserted (R330). -/
  | reset
  deriving DecidableEq, Repr

/-- The state of the engine (10_state.md), then four fields of the model's own. -/
structure State where
  /-- STATUS.BUSY (R33). -/
  busy : Bool
  /-- STATUS.DONE (R34). -/
  done : Bool
  /-- STATUS.BASE_VALID (R35). -/
  baseValid : Bool
  /-- STATUS.BOVR (R36). -/
  bovr : Bool
  /-- STATUS.ERR (R37). -/
  err : ErrCode
  /-- STATUS.FSTATE (R38). -/
  fstate : CtrlState
  /-- TVALID bits 15:0 (R40). -/
  tvalid : BitVec 16
  /-- HDVALID bits 15:0 (R41). -/
  hdvalid : BitVec 16
  /-- KEY (R42). -/
  key : Block
  /-- PT (R43). -/
  pt : Block
  /-- OPA (R44). -/
  opa : Block
  /-- OPB (R44). -/
  opb : Block
  /-- RES (R46). -/
  res : Block
  /-- CT (R47). -/
  ct : Block
  /-- WKEY (R48). -/
  wkey : Block
  /-- WPT (R48). -/
  wpt : Block
  /-- SK[1..16] (R49). -/
  sk : Vector Subkey 16
  /-- TRACE[1..16], `L_r || R_r` (R50). -/
  trace : Vector Block 16
  /-- BASE[1..16] (R51). -/
  base : Vector Block 16
  /-- HD_LAST[1..16] (R52). -/
  hdLast : Vector Distance 16
  /-- SUM, COUNT, MIN and MAX of rounds 1..16 (R53). -/
  acc : Vector Acc 16
  /-- L, internal (R54). -/
  l : HalfBlock
  /-- R, internal (R54). -/
  r : HalfBlock
  /-- C, internal (R54). -/
  c : KeyHalf
  /-- D, internal (R54). -/
  d : KeyHalf
  /-- LCMD, internal: the latched command word (R39, R54). -/
  lcmd : Word
  /-- STEP, internal (R54, R345). -/
  stepPos : StepPos
  /-- The parameter BASE_ADDR, the bus address of offset 0 (00_scope.md rule R8: a model argument). Nothing writes it. -/
  baseAddr : Nat
  /-- The model's own: the events still to come, in order (R345: a run is any interleaving; log entry 3). -/
  agenda : List Event
  /-- The model's own: what the host's accesses answered, the newest first (R74, R80; log entry 5). -/
  responses : List Response
  /-- The model's own: the index of the next free value to draw (R56, R342; log entry 1). -/
  draws : Nat
  deriving DecidableEq, Repr

/-- How many free values a reset draws (R56). -/
def resetDraws : Nat := 77

/-- The engine right after a reset that draws its unspecified registers from free value `n` on (R56, R331). Log entry 2. -/
def State.resetFrom (n baseAddr : Nat) (agenda : List Event) (responses : List Response) : State where
  busy := false
  done := false
  baseValid := false
  bovr := false
  err := .none
  fstate := .initial
  tvalid := 0
  hdvalid := 0
  key := Config.freeValue n
  pt := Config.freeValue (n + 1)
  opa := Config.freeValue (n + 2)
  opb := Config.freeValue (n + 3)
  res := Config.freeValue (n + 4)
  ct := Config.freeValue (n + 5)
  wkey := Config.freeValue (n + 6)
  wpt := Config.freeValue (n + 7)
  sk := Vector.ofFn fun i : Round => (Config.freeValue (n + 8 + i)).setWidth 48
  trace := Vector.ofFn fun i : Round => Config.freeValue (n + 24 + i)
  base := Vector.ofFn fun i : Round => Config.freeValue (n + 40 + i)
  hdLast := Vector.ofFn fun i : Round => (Config.freeValue (n + 56 + i)).setWidth 7
  acc := Vector.replicate 16 Acc.empty
  l := (Config.freeValue (n + 72)).setWidth 32
  r := (Config.freeValue (n + 73)).setWidth 32
  c := (Config.freeValue (n + 74)).setWidth 28
  d := (Config.freeValue (n + 75)).setWidth 28
  lcmd := (Config.freeValue (n + 76)).setWidth 32
  stepPos := .idle
  baseAddr := baseAddr
  agenda := agenda
  responses := responses
  draws := n + resetDraws

/-- The machine right after the power-on reset (R56, R331): idle, with nothing latched and no event to come. -/
def State.reset : State := State.resetFrom 0 Config.baseAddr [] []

end Sys2Proof.Machine
end

