-- ==== Sys2Proof/Machine/Flags.lean ====
section
/-! DEFINITION. The flags of the engine (10_state.md rule R57): the STATUS fields and the valid bits TVALID and HDVALID,
as software reads them. -/

namespace Sys2Proof.Machine

/-- The code of an error, STATUS bits 7:4 (60_exceptions.md rule R301). -/
def ErrCode.code : ErrCode → BitVec 4
  | .none => 0
  | .illegalCmd => 1
  | .outOfRange => 2
  | .lengthMismatch => 3
  | .noBaseline => 4
  | .noTrace => 5
  | .accOverflow => 6

/-- The code of a controller state, STATUS bits 12:8: 0 is INITIAL, r is ROUND_r, 17 is FINAL (R38). -/
def CtrlState.code : CtrlState → BitVec 5
  | .initial => 0
  | .round r => BitVec.ofNat 5 (r.val + 1)
  | .final => 17

/-- The controller state with a number modulo 18: every value is a legal one (R342: any value in 0..17). -/
def CtrlState.ofNumber (n : Nat) : CtrlState :=
  if n % 18 = 0 then .initial
  else if n % 18 = 17 then .final
  else .round (Fin.ofNat 16 (n % 18 - 1))

/-- The word STATUS with given fields (R32): bits 31:13 read 0. -/
def packStatus (busy done baseValid bovr : Bool) (err : ErrCode) (fstate : CtrlState) : Word :=
  0#19 ++ fstate.code ++ err.code ++ BitVec.ofBool bovr ++ BitVec.ofBool baseValid ++ BitVec.ofBool done ++
    BitVec.ofBool busy

/-- STATUS as it stands (R32). -/
def statusWord (s : State) : Word := packStatus s.busy s.done s.baseValid s.bovr s.err s.fstate

/-- A valid mask with the bit of round `r` set: `TVALID[r-1] <- 1` (R40, 43_feistel.md rule R245). -/
def setRoundBit (mask : BitVec 16) (r : Round) : BitVec 16 := mask ||| (1#16 <<< r.val)

/-- A valid mask with every round's bit set, 0xFFFF (44_analyzer.md rule R284). -/
def allRounds : BitVec 16 := 0xFFFF

end Sys2Proof.Machine
end

