-- ==== Sys2Proof/Machine/BitOps.lean ====
section
/-! DEFINITION. The bit-vector primitives (40_bitvector.md section 1, 00_scope.md rule R11, 44_analyzer.md rule R270):
pure functions that every datapath is composed of (R144). Index 0 of a BitVector is its most significant bit. -/

namespace Sys2Proof.Machine

/-- `permute(b, T)[i] = b[T[i+1] - 1]` (R140). -/
def permute {w n : Nat} (T : PermTable n) (b : BitVec w) : BitVec n :=
  BitVec.ofFnBE fun i : Fin n => b.getMsbD (T[i] - 1)

/-- `rotl(b, n)[i] = b[(i + n) mod w]` (R141). -/
def rotl {w : Nat} (b : BitVec w) (n : Nat) : BitVec w := b.rotateLeft n

/-- The slice `b[i .. i+len-1]` in BitVector indices, index `i` first (R11). -/
def slice {w : Nat} (b : BitVec w) (i len : Nat) : BitVec len := b.extractLsb' (w - i - len) len

/-- `popcount_w(v)`: the number of 1 bits (R11). -/
def popcount {w : Nat} (v : BitVec w) : Nat := (List.range w).countP fun i => v.getLsbD i

/-- `hd_w(a, b)`: the Hamming distance (R270). -/
def hd {w : Nat} (a b : BitVec w) : Nat := popcount (a ^^^ b)

/-- The HI word of a 64-bit register, bits 63:32 (20_memory.md rule R75). -/
def hiWord (v : Block) : Word := v.extractLsb' 32 32

/-- The LO word of a 64-bit register, bits 31:0 (R75). -/
def loWord (v : Block) : Word := v.extractLsb' 0 32

/-- The register with its HI word replaced (R78). -/
def setHiWord (v : Block) (x : Word) : Block := x ++ loWord v

/-- The register with its LO word replaced (R78). -/
def setLoWord (v : Block) (x : Word) : Block := hiWord v ++ x

end Sys2Proof.Machine
end

