-- ==== Sys2Proof/Machine/Cipher.lean ====
section
/-! DEFINITION. The cipher's pure functions: the subkey schedule (41_key_schedule.md), the round function F
(42_round_function.md), and the perturbation mask (43_feistel.md rule R247). -/

namespace Sys2Proof.Machine

/-! ## Subkey schedule -/

/-- `(C_r, D_r)` for `r` = 0 to 16: split PC-1 of the key (R183), then rotate both halves left by SHIFT of each round in turn
(R184). -/
def keyHalves (key : Block) : Nat → KeyHalf × KeyHalf
  | 0 =>
    let cd := permute tablePC1 key
    (slice cd 0 28, slice cd 28 28)
  | r + 1 =>
    let h := keyHalves key r
    let n := shiftSchedule[r]?.getD 0
    (rotl h.1 n, rotl h.2 n)

/-- PC-2 of the joined halves (R185). -/
def subkeyOf (h : KeyHalf × KeyHalf) : Subkey := permute tablePC2 (h.1 ++ h.2)

/-- `K_(r+1)`, the subkey of round `r + 1` (R185). -/
def subkey (key : Block) (r : Round) : Subkey := subkeyOf (keyHalves key (r.val + 1))

/-- `K[1..16]` of `schedule(key)` (R185). Irreducible, so that no failing unification unfolds sixteen rounds; evaluation by the
kernel is not affected. -/
@[irreducible] def schedule (key : Block) : Vector Subkey 16 := Vector.ofFn fun r => subkey key r

/-! ## Round function -/

/-- The row of an S-box lookup: `2*c[0] + c[5]` (R214). -/
def sboxRow (x : BitVec 6) : Fin 4 := (BitVec.ofBool (x.getMsbD 0) ++ BitVec.ofBool (x.getMsbD 5)).toFin

/-- The column of an S-box lookup: `c[1..4]`, `c[1]` the most significant (R214). -/
def sboxCol (x : BitVec 6) : Fin 16 := (slice x 1 4).toFin

/-- `sbox(i, x)` (R214). -/
def sbox (i : Fin 8) (x : BitVec 6) : BitVec 4 := BitVec.ofNat 4 sboxes[i][sboxRow x][sboxCol x]

/-- Expansion and key mixing, `permute(R, E) XOR K` (R213). -/
def mixKey (r : HalfBlock) (k : Subkey) : BitVec 48 := permute tableE r ^^^ k

/-- The S-box lookup array: lane `i` takes `X[6i .. 6i+5]` and produces `S[4i .. 4i+3]` (R215). -/
def sboxArray (x : BitVec 48) : BitVec 32 :=
  sbox 0 (slice x 0 6) ++ sbox 1 (slice x 6 6) ++ sbox 2 (slice x 12 6) ++ sbox 3 (slice x 18 6) ++
    sbox 4 (slice x 24 6) ++ sbox 5 (slice x 30 6) ++ sbox 6 (slice x 36 6) ++ sbox 7 (slice x 42 6)

/-- `F(R, K)` (R216). -/
def roundF (r : HalfBlock) (k : Subkey) : HalfBlock := permute tableP (sboxArray (mixKey r k))

/-! ## Encryption -/

/-- The flip mask `M(p) = 2^(64-p)` of DES bit `p`, for `p` in 1..64 (R247). -/
def flipMask (p : Nat) : Block := 1#64 <<< (64 - p)

/-- `(L_0, R_0)`: the two halves of IP of the working plaintext (R244). -/
def initialHalves (wpt : Block) : HalfBlock × HalfBlock :=
  let b := permute tableIP wpt
  (slice b 0 32, slice b 32 32)

/-- One Feistel round: `L_r = R_(r-1)` and `R_r = L_(r-1) XOR F(R_(r-1), K_r)`, both from the old values (R245). -/
def feistelRound (h : HalfBlock × HalfBlock) (k : Subkey) : HalfBlock × HalfBlock := (h.2, h.1 ^^^ roundF h.2 k)

/-- IP^-1 of `R_16 || L_16`: the final swap and permutation (R246). -/
def finalBlock (h : HalfBlock × HalfBlock) : Block := permute tableIPInv (h.2 ++ h.1)

end Sys2Proof.Machine
end

