-- ==== Sys2Proof/Syntax.lean ====
section
/-! DEFINITION. The commands of DESRT-CORE as syntax: one constructor of `Instr` for each row of
spec/opcode_table.json (30_encoding.md rule R121), with the operand fields of its format (rules R112 to R120). -/

namespace Sys2Proof

/-- The target of a perturbation, field TGT of format X (R113). -/
inductive Target where
  /-- TGT = 0: the plaintext. -/
  | pt
  /-- TGT = 1: the key. -/
  | key
  deriving DecidableEq, Repr

/-- The permutation table a PERMUTE selects, field TSEL of format T (R114). -/
inductive Table where
  | ip
  | ipInv
  | e
  | p
  | pc1
  | pc2
  deriving DecidableEq, Repr

/-- The width of an operand of XOR or HDIST, fields WA and WB of format W (R116, R117). -/
inductive Width where
  | w64
  | w56
  | w48
  | w32
  | w28
  | w6
  | w4
  deriving DecidableEq, Repr

/-- The width in bits (R117). -/
def Width.bits : Width → Nat
  | .w64 => 64
  | .w56 => 56
  | .w48 => 48
  | .w32 => 32
  | .w28 => 28
  | .w6 => 6
  | .w4 => 4

/-- A command (R121). `pos` and `n` are the unsigned numbers of the fields POS and N; `box` is the S-box index. -/
inductive Instr where
  /-- NOP (R152). -/
  | nop
  /-- KSCHED (R186). -/
  | ksched
  /-- ENCRYPT pen, tgt, pos (R255). -/
  | encrypt (pen : Bool) (tgt : Target) (pos : Nat)
  /-- PERMUTE table (R153). -/
  | permute (t : Table)
  /-- ROTL28 n (R155). -/
  | rotl28 (n : Nat)
  /-- XOR wa, wb (R157). -/
  | xor (wa wb : Width)
  /-- SBOX box (R220). -/
  | sbox (box : Fin 8)
  /-- FEVAL (R222). -/
  | feval
  /-- HDIST wa, wb (R280). -/
  | hdist (wa wb : Width)
  /-- AN_CLEAR, written AN.CLEAR in assembler syntax (R282, R128). -/
  | anClear
  /-- AN_BASE, written AN.BASE (R284). -/
  | anBase
  /-- AN_ACC, written AN.ACC (R286). -/
  | anAcc
  deriving DecidableEq, Repr

end Sys2Proof
end

