-- ==== Sys2Proof/Machine/Operands.lean ====
section
/-! DEFINITION. The operand forms of the datapath commands and the placement of their results (30_encoding.md rules
R114, R118 and R119). -/

namespace Sys2Proof.Machine

/-- An operand of width `w`: the low `w` bits of its 64-bit register; the bits above are ignored (R118). -/
def operand (w : Nat) (reg : Block) : BitVec w := reg.setWidth w

/-- A datapath result placed in RES: right-aligned and zero-extended (R119). -/
def placeResult {w : Nat} (v : BitVec w) : Block := v.setWidth 64

/-- The table a TSEL selects, applied to its operand in OPA, as it is placed in RES; the table fixes both widths
(R114, 40_bitvector.md rule R153). -/
def applyTable (t : Table) (opa : Block) : Block :=
  match t with
  | .ip => placeResult (permute tableIP (operand 64 opa))
  | .ipInv => placeResult (permute tableIPInv (operand 64 opa))
  | .e => placeResult (permute tableE (operand 32 opa))
  | .p => placeResult (permute tableP (operand 32 opa))
  | .pc1 => placeResult (permute tablePC1 (operand 64 opa))
  | .pc2 => placeResult (permute tablePC2 (operand 56 opa))

end Sys2Proof.Machine
end

