-- ==== Sys2Proof/Machine/Ops.lean ====
section
/-! DEFINITION. The operations every command shares: acceptance, completion, raising an error, writing a result, drawing
a free value, and reset. The engine takes no traps (60_exceptions.md rule R311): raising an error is what stands for
taking an exception, and R312 says there is no return from one: the next acceptance starts afresh. -/

namespace Sys2Proof.Machine

/-- Acceptance of a command word: it is latched, BUSY is set, DONE cleared, and STEP is the first step (R33, R34, R39,
20_memory.md rule R81). -/
def accept (w : Word) (s : State) : State :=
  { s with lcmd := w, busy := true, done := false, stepPos := .first }

/-- Completion of the latched command with a result code (R33, R34, R37, 70_reset_and_hazards.md rule R345). -/
def complete (e : ErrCode) (s : State) : State :=
  { s with busy := false, done := true, err := e, stepPos := .idle }

/-- Successful completion (R37). -/
def succeed (s : State) : State := complete .none s

/-- `raise <Error>`: the command completes with the error's code and writes nothing else (60_exceptions.md rule R300). -/
def raiseError (e : ErrCode) (s : State) : State := complete e s

/-- A datapath command's last act: RES takes the result, and the command succeeds (30_encoding.md rule R119). -/
def putResult (v : Block) (s : State) : State := succeed { s with res := v }

/-- The subkey file and the halves C and D take the schedule of a key (41_key_schedule.md rules R185 and R186,
43_feistel.md rule R249). -/
def loadSchedule (key : Block) (s : State) : State :=
  { s with sk := schedule key, c := (keyHalves key 16).1, d := (keyHalves key 16).2 }

/-- The position after a step that does not complete (R345: STEP is incremented). -/
def StepPos.next : StepPos → StepPos
  | .idle => .idle
  | .first => .round 0
  | .round r => if h : r.val + 1 < 16 then .round ⟨r.val + 1, h⟩ else .last
  | .last => .idle

/-- The number STEP, where a command is latched (R345). -/
def StepPos.number : StepPos → Option Nat
  | .idle => none
  | .first => some 1
  | .round r => some (r.val + 2)
  | .last => some 18

/-- The next free value, which the state then does not draw again (log entry 1). -/
def draw (s : State) : Block × State := (Config.freeValue s.draws, { s with draws := s.draws + 1 })

/-- The external reset (R330, R331, R332): every register takes its reset value, the unspecified ones drawn anew, and any
latched command is gone. The bus's events to come, its answers so far and BASE_ADDR are not the engine's (log entry 7). -/
def resetEvent (s : State) : State := State.resetFrom s.draws s.baseAddr s.agenda s.responses

end Sys2Proof.Machine
end

