-- ==== Sys2Proof/Machine/Analyzer.lean ====
section
/-! DEFINITION. The diffusion analyzer: HDIST, AN_CLEAR, AN_BASE, AN_ACC (44_analyzer.md section 2). -/

namespace Sys2Proof.Machine

/-- HDIST (R280): LENGTH_MISMATCH when the widths differ, and RES is then unchanged. -/
def execHdist (wa wb : Width) (s : State) : Host.Outcome State Fault Refusal :=
  if wa = wb then .next (putResult (BitVec.ofNat 64 (hd (operand wa.bits s.opa) (operand wa.bits s.opb))) s)
  else .next (raiseError .lengthMismatch s)

/-- AN_CLEAR (R282): BASE and HD_LAST keep their contents. -/
def execAnClear (s : State) : Host.Outcome State Fault Refusal :=
  .next (succeed { s with acc := Vector.replicate 16 Acc.empty, hdvalid := 0, baseValid := false })

/-- AN_BASE (R284): NO_TRACE unless every round's trace is valid. -/
def execAnBase (s : State) : Host.Outcome State Fault Refusal :=
  if s.tvalid = allRounds then .next (succeed { s with base := s.trace, baseValid := true })
  else .next (raiseError .noTrace s)

/-- Round `r` has data: its TVALID bit is 1 (R275). -/
def included (s : State) (r : Round) : Bool := s.tvalid.getLsbD r.val

/-- `d_r`, the round's distance between TRACE and BASE (R271), in 0..64. -/
def roundDistance (s : State) (r : Round) : Distance := BitVec.ofNat 7 (hd s.trace[r] s.base[r])

/-- One sample added to a round's accumulators (R286). SUM cannot wrap, by the bound of COUNT (R287). -/
def Acc.addSample (a : Acc) (d : Distance) : Acc where
  sum := a.sum + d.setWidth 64
  count := a.count + 1
  min := if d ≤ a.min then d else a.min
  max := if a.max ≤ d then d else a.max

/-- Some included round's COUNT is at its greatest value (R308). -/
def accFull (s : State) : Bool :=
  (List.finRange 16).any fun r => included s r && s.acc[r].count == 0xFFFFFFFF

/-- The accumulation of every included round (R286); an excluded one keeps its accumulators and HD_LAST, and its HDVALID
bit is cleared, so that HDVALID becomes TVALID (R275). -/
def accumulate (s : State) : State :=
  { s with
    acc := Vector.ofFn fun r : Round => if included s r then s.acc[r].addSample (roundDistance s r) else s.acc[r]
    hdLast := Vector.ofFn fun r : Round => if included s r then roundDistance s r else s.hdLast[r]
    hdvalid := s.tvalid }

/-- AN_ACC (R286): NO_BASELINE, then ACC_OVERFLOW, are checked first (60_exceptions.md rule R302). -/
def execAnAcc (s : State) : Host.Outcome State Fault Refusal :=
  if s.baseValid = false then .next (raiseError .noBaseline s)
  else if accFull s then .next (raiseError .accOverflow s)
  else .next (succeed (accumulate s))

end Sys2Proof.Machine
end

