-- ==== Sys2Proof/Machine/Feistel.lean ====
section
/-! DEFINITION. ENCRYPT: the 16-round controller with the IP and FP pipelines (43_feistel.md). One engine step performs
one controller state (R243, 70_reset_and_hazards.md rule R345). -/

namespace Sys2Proof.Machine

/-- The working plaintext: PT with bit POS flipped when PEN = 1 and TGT = 0 (R248). -/
def workingPt (pen : Bool) (tgt : Target) (pos : Nat) (pt : Block) : Block :=
  if pen = true ∧ tgt = .pt then pt ^^^ flipMask pos else pt

/-- The working key: KEY with bit POS flipped when PEN = 1 and TGT = 1 (R248). -/
def workingKey (pen : Bool) (tgt : Target) (pos : Nat) (key : Block) : Block :=
  if pen = true ∧ tgt = .key then key ^^^ flipMask pos else key

/-- The INITIAL step (R244): the working values, their schedule, and IP. -/
def encryptInitial (pen : Bool) (tgt : Target) (pos : Nat) (s : State) : State :=
  let wkey := workingKey pen tgt pos s.key
  let wpt := workingPt pen tgt pos s.pt
  let h := initialHalves wpt
  loadSchedule wkey { s with
    wkey := wkey, wpt := wpt, tvalid := 0, l := h.1, r := h.2, fstate := .initial, stepPos := StepPos.first.next }

/-- The step ROUND_(i+1) (R245): both halves from the old values, then the trace entry (R251). -/
def encryptRound (i : Round) (s : State) : State :=
  let h := feistelRound (s.l, s.r) s.sk[i]
  { s with
    l := h.1, r := h.2, trace := s.trace.set i (h.1 ++ h.2), tvalid := setRoundBit s.tvalid i, fstate := .round i,
    stepPos := (StepPos.round i).next }

/-- The FINAL step (R246): the ciphertext, and the command succeeds. -/
def encryptFinal (s : State) : State := succeed { s with ct := finalBlock (s.l, s.r), fstate := .final }

/-- The validation of step 1 (R254): with PEN = 1 the position lies in 1..64; with PEN = 0 it is not checked (R125). -/
def positionOk (pen : Bool) (pos : Nat) : Bool := !pen || (decide (1 ≤ pos) && decide (pos ≤ 64))

/-- ENCRYPT (R255): the step STEP names. With no command latched the engine keeps its state (60_exceptions.md rule R319;
log entry 8). -/
def execEncrypt (pen : Bool) (tgt : Target) (pos : Nat) (s : State) : Host.Outcome State Fault Refusal :=
  match s.stepPos with
  | .idle => .next s
  | .first =>
    if positionOk pen pos then .next (encryptInitial pen tgt pos s) else .next (raiseError .outOfRange s)
  | .round i => .next (encryptRound i s)
  | .last => .next (encryptFinal s)

end Sys2Proof.Machine
end

