-- ==== Sys2Proof/Machine/KeySchedule.lean ====
section
/-! DEFINITION. KSCHED (41_key_schedule.md section 3). -/

namespace Sys2Proof.Machine

/-- KSCHED (R186): the schedule of KEY, never of WKEY. -/
def execKsched (s : State) : Host.Outcome State Fault Refusal := .next (succeed (loadSchedule s.key s))

end Sys2Proof.Machine
end

