-- ==== Sys2Proof/Machine/Primitive.lean ====
section
/-! DEFINITION. NOP and the commands of the bit-vector primitives: PERMUTE, ROTL28, XOR (40_bitvector.md section 4). -/

namespace Sys2Proof.Machine

/-- NOP (R152): it only completes. -/
def execNop (s : State) : Host.Outcome State Fault Refusal := .next (succeed s)

/-- PERMUTE (R153). -/
def execPermute (t : Table) (s : State) : Host.Outcome State Fault Refusal := .next (putResult (applyTable t s.opa) s)

/-- ROTL28 (R155). -/
def execRotl28 (n : Nat) (s : State) : Host.Outcome State Fault Refusal :=
  .next (putResult (placeResult (rotl (operand 28 s.opa) (n % 28))) s)

/-- XOR (R157): LENGTH_MISMATCH when the widths differ, and RES is then unchanged. -/
def execXor (wa wb : Width) (s : State) : Host.Outcome State Fault Refusal :=
  if wa = wb then .next (putResult (placeResult (operand wa.bits s.opa ^^^ operand wa.bits s.opb)) s)
  else .next (raiseError .lengthMismatch s)

end Sys2Proof.Machine
end

