-- ==== Sys2Proof/Machine/RoundCore.lean ====
section
/-! DEFINITION. The commands of the round core: SBOX and FEVAL (42_round_function.md section 3). -/

namespace Sys2Proof.Machine

/-- SBOX (R220). -/
def execSbox (box : Fin 8) (s : State) : Host.Outcome State Fault Refusal :=
  .next (putResult (placeResult (sbox box (operand 6 s.opa))) s)

/-- FEVAL (R222). -/
def execFeval (s : State) : Host.Outcome State Fault Refusal :=
  .next (putResult (placeResult (roundF (operand 32 s.opa) (operand 48 s.opb))) s)

end Sys2Proof.Machine
end

