-- ==== Sys2Proof/Machine/Dispatch.lean ====
section
/-! DEFINITION. The dispatch: one arm per command (30_encoding.md rule R121). -/

namespace Sys2Proof.Machine

/-- The engine step of a running command: one step of ENCRYPT, the whole of every other command
(70_reset_and_hazards.md rule R345). -/
def exec (i : Instr) (s : State) : Host.Outcome State Fault Refusal :=
  match i with
  | .nop => Sys2Proof.Machine.execNop s
  | .ksched => Sys2Proof.Machine.execKsched s
  | .encrypt pen tgt pos => Sys2Proof.Machine.execEncrypt pen tgt pos s
  | .permute t => Sys2Proof.Machine.execPermute t s
  | .rotl28 n => Sys2Proof.Machine.execRotl28 n s
  | .xor wa wb => Sys2Proof.Machine.execXor wa wb s
  | .sbox box => Sys2Proof.Machine.execSbox box s
  | .feval => Sys2Proof.Machine.execFeval s
  | .hdist wa wb => Sys2Proof.Machine.execHdist wa wb s
  | .anClear => Sys2Proof.Machine.execAnClear s
  | .anBase => Sys2Proof.Machine.execAnBase s
  | .anAcc => Sys2Proof.Machine.execAnAcc s

end Sys2Proof.Machine
end

