-- ==== Sys2Proof/WellFormed.lean ====
section
/-! DEFINITION. Which command terms have an encoding: the operand ranges of the assembler syntax (30_encoding.md
rule R128). The ranges of TSEL, WA, WB, TGT, PEN and BOX are the types of their fields. -/

namespace Sys2Proof

/-- The command's operands lie in the ranges that have an encoding: `pos` in 0..127 and `n` in 0..31 (R128). A POS
outside 1..64 is well formed: it is encodable and decodes normally (R124). -/
def Instr.wellFormed : Instr → Bool
  | .nop => true
  | .ksched => true
  | .encrypt _ _ pos => decide (pos < 128)
  | .permute _ => true
  | .rotl28 n => decide (n < 32)
  | .xor _ _ => true
  | .sbox _ => true
  | .feval => true
  | .hdist _ _ => true
  | .anClear => true
  | .anBase => true
  | .anAcc => true

end Sys2Proof
end

