-- ==== Sys2Proof/Decode.lean ====
section
/-! DEFINITION. The command decoder (30_encoding.md rule R127), total on every 32-bit word, and the encoder written
from the same formats (rules R111 to R121). -/

namespace Sys2Proof

/-- The twelve defined opcodes, field OP (R121). -/
inductive Opcode where
  | nop | ksched | encrypt | permute | rotl28 | xor | sbox | feval | hdist | anClear | anBase | anAcc
  deriving DecidableEq, Repr

/-- Every opcode of the map, in the map's order (R121). -/
def Opcode.all : List Opcode :=
  [.nop, .ksched, .encrypt, .permute, .rotl28, .xor, .sbox, .feval, .hdist, .anClear, .anBase, .anAcc]

/-- The value of field OP, bits 7:0 (R111, R121). -/
def Opcode.code : Opcode → BitVec 8
  | .nop => 0x00
  | .ksched => 0x01
  | .encrypt => 0x02
  | .permute => 0x10
  | .rotl28 => 0x11
  | .xor => 0x12
  | .sbox => 0x13
  | .feval => 0x14
  | .hdist => 0x15
  | .anClear => 0x20
  | .anBase => 0x21
  | .anAcc => 0x22

/-- The column `mask` of the opcode map: OP and every reserved bit of the format (R121). -/
def Opcode.mask : Opcode → Word
  | .nop => 0xFFFFFFFF
  | .ksched => 0xFFFFFFFF
  | .encrypt => 0xFF80FCFF
  | .permute => 0xFFFFF8FF
  | .rotl28 => 0xFFFFE0FF
  | .xor => 0xFFFF88FF
  | .sbox => 0xFFFFF8FF
  | .feval => 0xFFFFFFFF
  | .hdist => 0xFFFF88FF
  | .anClear => 0xFFFFFFFF
  | .anBase => 0xFFFFFFFF
  | .anAcc => 0xFFFFFFFF

/-- The column `match` of the opcode map (R121). -/
def Opcode.matchWord : Opcode → Word
  | .nop => 0x00000000
  | .ksched => 0x00000001
  | .encrypt => 0x00000002
  | .permute => 0x00000010
  | .rotl28 => 0x00000011
  | .xor => 0x00000012
  | .sbox => 0x00000013
  | .feval => 0x00000014
  | .hdist => 0x00000015
  | .anClear => 0x00000020
  | .anBase => 0x00000021
  | .anAcc => 0x00000022

/-- The opcode with a given value of field OP, if the map has one; every other value is reserved (R121, R122). -/
def Opcode.ofCode (c : BitVec 8) : Option Opcode :=
  Opcode.all.find? fun op => op.code == c

/-- The value of field TSEL (R114). -/
def Table.code : Table → BitVec 3
  | .ip => 0
  | .ipInv => 1
  | .e => 2
  | .p => 3
  | .pc1 => 4
  | .pc2 => 5

/-- The six tables, in TSEL order (R114). -/
def Table.all : List Table := [.ip, .ipInv, .e, .p, .pc1, .pc2]

/-- The table a TSEL value selects; 6 and 7 are reserved (R114, R124). -/
def Table.ofCode (c : BitVec 3) : Option Table :=
  Table.all.find? fun t => t.code == c

/-- The value of a width field, WA or WB (R117). -/
def Width.code : Width → BitVec 3
  | .w64 => 0
  | .w56 => 1
  | .w48 => 2
  | .w32 => 3
  | .w28 => 4
  | .w6 => 5
  | .w4 => 6

/-- The seven legal widths, in code order (R117). -/
def Width.all : List Width := [.w64, .w56, .w48, .w32, .w28, .w6, .w4]

/-- The width a code stands for; 7 is reserved (R117, R124). -/
def Width.ofCode (c : BitVec 3) : Option Width :=
  Width.all.find? fun w => w.code == c

/-- The value of field TGT (R113). -/
def Target.code : Target → BitVec 1
  | .pt => 0
  | .key => 1

/-- The target a TGT value selects (R113). -/
def Target.ofBit : Bool → Target
  | false => .pt
  | true => .key

/-- Why a word selects no command. Each one makes the engine complete with ILLEGAL_CMD (R303). -/
inductive Reject where
  /-- OP is outside the opcode map (R122). -/
  | reservedOpcode
  /-- A bit the format marks `0` is 1 (R123). -/
  | reservedBit
  /-- TSEL is 6 or 7, or WA or WB is 7 (R124). -/
  | reservedField
  deriving DecidableEq, Repr

/-- Field OP, bits 7:0 (R111). -/
def opField (w : Word) : BitVec 8 := w.extractLsb' 0 8

/-- The three-bit field at bits 10:8: TSEL of format T, BOX of format B, WA of format W (R114, R116, R120). -/
def lowSelector (w : Word) : BitVec 3 := w.extractLsb' 8 3

/-- Field WB of format W, bits 14:12 (R116). -/
def highSelector (w : Word) : BitVec 3 := w.extractLsb' 12 3

/-- Field POS of format X, bits 22:16 (R113). -/
def posField (w : Word) : BitVec 7 := w.extractLsb' 16 7

/-- Field N of format S, bits 12:8 (R115). -/
def amountField (w : Word) : BitVec 5 := w.extractLsb' 8 5

/-- Both width fields of format W (R116, R117). -/
def widthFields (w : Word) : Option (Width × Width) :=
  match Width.ofCode (lowSelector w), Width.ofCode (highSelector w) with
  | some wa, some wb => some (wa, wb)
  | _, _ => none

/-- The fields of the opcode's format, read from a word whose reserved bits are 0 (R112 to R120, R124). -/
def decodeFields (op : Opcode) (w : Word) : Except Reject Instr :=
  match op with
  | .nop => .ok .nop
  | .ksched => .ok .ksched
  | .encrypt => .ok (.encrypt (w.getLsbD 8) (Target.ofBit (w.getLsbD 9)) (posField w).toNat)
  | .permute =>
    match Table.ofCode (lowSelector w) with
    | some t => .ok (.permute t)
    | none => .error .reservedField
  | .rotl28 => .ok (.rotl28 (amountField w).toNat)
  | .xor =>
    match widthFields w with
    | some (wa, wb) => .ok (.xor wa wb)
    | none => .error .reservedField
  | .sbox => .ok (.sbox (lowSelector w).toFin)
  | .feval => .ok .feval
  | .hdist =>
    match widthFields w with
    | some (wa, wb) => .ok (.hdist wa wb)
    | none => .error .reservedField
  | .anClear => .ok .anClear
  | .anBase => .ok .anBase
  | .anAcc => .ok .anAcc

/-- The decode function (R127): the opcode is defined, then no reserved bit is set, then no reserved field value is
used; the first check that fails decides (R302). -/
def decode (w : Word) : Except Reject Instr :=
  match Opcode.ofCode (opField w) with
  | none => .error .reservedOpcode
  | some op =>
    if (w &&& op.mask) ≠ op.matchWord then .error .reservedBit
    else decodeFields op w

/-! ## The encoder -/

/-- The opcode of a command (R121). -/
def Instr.opcode : Instr → Opcode
  | .nop => .nop
  | .ksched => .ksched
  | .encrypt _ _ _ => .encrypt
  | .permute _ => .permute
  | .rotl28 _ => .rotl28
  | .xor _ _ => .xor
  | .sbox _ => .sbox
  | .feval => .feval
  | .hdist _ _ => .hdist
  | .anClear => .anClear
  | .anBase => .anBase
  | .anAcc => .anAcc

/-- The word of a command with no operands: bits 31:8 are 0 (format N, R112). -/
def encodeN (op : Opcode) : Word := 0#24 ++ op.code

/-- Format X (R113): bits 31:23 are 0, POS in 22:16, bits 15:10 are 0, TGT in 9, PEN in 8, OP in 7:0. -/
def encodeX (pos : BitVec 7) (tgt pen : BitVec 1) (op : Opcode) : Word :=
  0#9 ++ pos ++ 0#6 ++ tgt ++ pen ++ op.code

/-- Formats T and B (R114, R120): bits 31:11 are 0, TSEL or BOX in 10:8, OP in 7:0. -/
def encodeT (sel : BitVec 3) (op : Opcode) : Word := 0#21 ++ sel ++ op.code

/-- Format S (R115): bits 31:13 are 0, N in 12:8, OP in 7:0. -/
def encodeS (n : BitVec 5) (op : Opcode) : Word := 0#19 ++ n ++ op.code

/-- Format W (R116): bits 31:15 are 0, WB in 14:12, bit 11 is 0, WA in 10:8, OP in 7:0. -/
def encodeW (wa wb : BitVec 3) (op : Opcode) : Word := 0#17 ++ wb ++ 0#1 ++ wa ++ op.code

/-- The word of a well-formed command (R112 to R121). -/
def encode : Instr → Word
  | .nop => encodeN .nop
  | .ksched => encodeN .ksched
  | .encrypt pen tgt pos => encodeX (BitVec.ofNat 7 pos) tgt.code (BitVec.ofBool pen) .encrypt
  | .permute t => encodeT t.code .permute
  | .rotl28 n => encodeS (BitVec.ofNat 5 n) .rotl28
  | .xor wa wb => encodeW wa.code wb.code .xor
  | .sbox box => encodeT (BitVec.ofFin box) .sbox
  | .feval => encodeN .feval
  | .hdist wa wb => encodeW wa.code wb.code .hdist
  | .anClear => encodeN .anClear
  | .anBase => encodeN .anBase
  | .anAcc => encodeN .anAcc

/-- The command the decoder reads from a row of spec/opcode_table.json: a command is one 32-bit word (R110), a number
whose bit 0 is the least significant; no byte order applies (20_memory.md rule R75). Bits at and above `nbits` are 0,
and a row longer than one word has no command. -/
def decodeTableWord (nbits w : Nat) : Option Instr :=
  if nbits ≤ 32 then (decode (BitVec.ofNat 32 (w % 2 ^ nbits))).toOption else none

end Sys2Proof
end

