-- ==== Sys2Proof/Machine/Window.lean ====
section
/-! DEFINITION. The register window (20_memory.md): the register map, what a word of it reads as, and the two bus
accesses MemRead and MemWrite. The engine has no other memory (R70). -/

namespace Sys2Proof.Machine

/-- Which word of a two-word register: HI at the lower offset, LO at the next word (R75). -/
inductive Half where
  | hi
  | lo
  deriving DecidableEq, Repr

/-- A word of the register map (R82). `trace r .hi` is TRACE_L and `trace r .lo` is TRACE_R of round `r + 1`; likewise
`base`. -/
inductive Reg where
  | id
  | status
  | cmd
  | tvalid
  | hdvalid
  | key (h : Half)
  | pt (h : Half)
  | opa (h : Half)
  | opb (h : Half)
  | res (h : Half)
  | ct (h : Half)
  | wkey (h : Half)
  | wpt (h : Half)
  | sk (r : Round) (h : Half)
  | trace (r : Round) (h : Half)
  | base (r : Round) (h : Half)
  | hdLast (r : Round)
  | sum (r : Round) (h : Half)
  | count (r : Round)
  | minmax (r : Round)
  deriving DecidableEq, Repr

/-- The distance of a word from the HI word of its register (R75). -/
def Half.offset : Half → Nat
  | .hi => 0
  | .lo => 4

/-- The offset of a word in the window (R82). -/
def Reg.offset : Reg → Nat
  | .id => 0x000
  | .status => 0x004
  | .cmd => 0x008
  | .tvalid => 0x00C
  | .hdvalid => 0x010
  | .key h => 0x020 + h.offset
  | .pt h => 0x028 + h.offset
  | .opa h => 0x030 + h.offset
  | .opb h => 0x038 + h.offset
  | .res h => 0x040 + h.offset
  | .ct h => 0x048 + h.offset
  | .wkey h => 0x050 + h.offset
  | .wpt h => 0x058 + h.offset
  | .sk r h => 0x100 + 8 * r.val + h.offset
  | .trace r h => 0x200 + 8 * r.val + h.offset
  | .base r h => 0x280 + 8 * r.val + h.offset
  | .hdLast r => 0x300 + 4 * r.val
  | .sum r h => 0x400 + 16 * r.val + h.offset
  | .count r => 0x400 + 16 * r.val + 0x8
  | .minmax r => 0x400 + 16 * r.val + 0xC

/-- Both words of a register. -/
def bothHalves (f : Half → Reg) : List Reg := [f .hi, f .lo]

/-- A word for every round. -/
def everyRound (f : Round → List Reg) : List Reg := (List.finRange 16).flatMap f

/-- Every word of the register map, in the map's order (R82). -/
def Reg.all : List Reg :=
  [.id, .status, .cmd, .tvalid, .hdvalid] ++
  bothHalves .key ++ bothHalves .pt ++ bothHalves .opa ++ bothHalves .opb ++
  bothHalves .res ++ bothHalves .ct ++ bothHalves .wkey ++ bothHalves .wpt ++
  everyRound (fun r => bothHalves (.sk r)) ++
  everyRound (fun r => bothHalves (.trace r)) ++
  everyRound (fun r => bothHalves (.base r)) ++
  everyRound (fun r => [.hdLast r]) ++
  everyRound (fun r => bothHalves (.sum r) ++ [.count r, .minmax r])

/-- The word an aligned offset is mapped to; every other offset is unmapped (R82, R83). -/
def Reg.ofOffset (off : Nat) : Option Reg := Reg.all.find? fun g => g.offset == off

/-- The word an access reaches: it is 4 bytes wide, its offset is a multiple of 4, and the offset is mapped (R71 to R73). -/
def accessed (width off : Nat) : Option Reg :=
  if width = 4 ∧ off % 4 = 0 then Reg.ofOffset off else none

/-- The constant the identification register reads as, ASCII "DES1" (10_state.md rule R31). -/
def idWord : Word := 0x44455331

/-- A word of a 64-bit register (R75). -/
def wordOf (v : Block) : Half → Word
  | .hi => hiWord v
  | .lo => loWord v

/-- The word a register holds, reserved bits 0 (R80; 10_state.md rules R31, R32, R39 to R53). CMD reads as 0 (R39). -/
def readReg (g : Reg) (s : State) : Word :=
  match g with
  | .id => idWord
  | .status => statusWord s
  | .cmd => 0
  | .tvalid => s.tvalid.setWidth 32
  | .hdvalid => s.hdvalid.setWidth 32
  | .key h => wordOf s.key h
  | .pt h => wordOf s.pt h
  | .opa h => wordOf s.opa h
  | .opb h => wordOf s.opb h
  | .res h => wordOf s.res h
  | .ct h => wordOf s.ct h
  | .wkey h => wordOf s.wkey h
  | .wpt h => wordOf s.wpt h
  | .sk r h => wordOf (s.sk[r].setWidth 64) h
  | .trace r h => wordOf s.trace[r] h
  | .base r h => wordOf s.base[r] h
  | .hdLast r => s.hdLast[r].setWidth 32
  | .sum r h => wordOf s.acc[r].sum h
  | .count r => s.acc[r].count
  | .minmax r => 0#9 ++ s.acc[r].max ++ 0#9 ++ s.acc[r].min

/-- The words in a command's write set, STATUS aside (10_state.md rule R59). DEDUCED (log entry 9), unsafe: AN_ACC's accumulators
are those of the rounds with data, as R59's 'rounds accumulated' is read. -/
def inWriteSet (i : Instr) (s : State) (g : Reg) : Bool :=
  match i with
  | .nop => false
  | .ksched => match g with
    | .sk _ _ => true
    | _ => false
  | .encrypt _ _ _ => match g with
    | .wkey _ => true
    | .wpt _ => true
    | .sk _ _ => true
    | .tvalid => true
    | .trace _ _ => true
    | .ct _ => true
    | _ => false
  | .permute _ => match g with
    | .res _ => true
    | _ => false
  | .rotl28 _ => match g with
    | .res _ => true
    | _ => false
  | .xor _ _ => match g with
    | .res _ => true
    | _ => false
  | .sbox _ => match g with
    | .res _ => true
    | _ => false
  | .feval => match g with
    | .res _ => true
    | _ => false
  | .hdist _ _ => match g with
    | .res _ => true
    | _ => false
  | .anClear => match g with
    | .sum _ _ => true
    | .count _ => true
    | .minmax _ => true
    | .hdvalid => true
    | _ => false
  | .anBase => match g with
    | .base _ _ => true
    | _ => false
  | .anAcc => match g with
    | .sum r _ => included s r
    | .count r => included s r
    | .minmax r => included s r
    | .hdLast _ => true
    | .hdvalid => true
    | _ => false

/-- The command the latched word selects, while BUSY = 1; a word the decoder rejects selects none (R127). DEDUCED (log
entry 9), unsafe: so every read is exact while such a word runs. -/
def runningCommand (s : State) : Option Instr :=
  if s.busy then (decode s.lcmd).toOption else none

/-- The word is in the running command's write set, so that a read of it returns any value (R80,
70_reset_and_hazards.md rule R342). -/
def isOpen (s : State) (g : Reg) : Bool :=
  match runningCommand s with
  | some i => inWriteSet i s g
  | none => false

/-- A read of STATUS (R342): BUSY, DONE, BOVR and ERR are exact. FSTATE is any legal value while an ENCRYPT runs, and
BASE_VALID is either value while AN_CLEAR or AN_BASE runs. -/
def readStatus (s : State) : Word × State :=
  match runningCommand s with
  | some (.encrypt _ _ _) =>
    let (v, s') := draw s
    (packStatus s.busy s.done s.baseValid s.bovr s.err (CtrlState.ofNumber v.toNat), s')
  | some .anClear =>
    let (v, s') := draw s
    (packStatus s.busy s.done (v.getLsbD 0) s.bovr s.err s.fstate, s')
  | some .anBase =>
    let (v, s') := draw s
    (packStatus s.busy s.done (v.getLsbD 0) s.bovr s.err s.fstate, s')
  | _ => (statusWord s, s)

/-- The value a mapped word reads as (R80). -/
def readWord (g : Reg) (s : State) : Word × State :=
  if g = .cmd then (0, s)
  else if g = .status then readStatus s
  else if isOpen s g then
    let (v, s') := draw s
    (v.setWidth 32, s')
  else (readReg g s, s)

/-- `MemRead(off, width)` (R80): the word read, and the state after it, which differs in the free values drawn alone (R79). -/
def memRead (width off : Nat) (s : State) : Except Fault (Word × State) :=
  match accessed width off with
  | none => .error (.busError width off)
  | some g => .ok (readWord g s)

/-- The word `v` put into half `h` of a 64-bit register (R78). -/
def setWord (reg : Block) (h : Half) (v : Word) : Block :=
  match h with
  | .hi => setHiWord reg v
  | .lo => setLoWord reg v

/-- A write to a word other than STATUS and CMD while the engine is idle: KEY, PT, OPA and OPB store it, and a read-only
register ignores it (R81, R84). -/
def storeReg (g : Reg) (v : Word) (s : State) : State :=
  match g with
  | .key h => { s with key := setWord s.key h v }
  | .pt h => { s with pt := setWord s.pt h v }
  | .opa h => { s with opa := setWord s.opa h v }
  | .opb h => { s with opb := setWord s.opb h v }
  | _ => s

/-- A write to a mapped word (R81): STATUS clears BOVR where bit 3 is 1; while BUSY = 1 every other write is ignored and
sets BOVR; CMD accepts a command. -/
def writeWord (g : Reg) (v : Word) (s : State) : State :=
  if g = .status then { s with bovr := s.bovr && !v.getLsbD 3 }
  else if s.busy then { s with bovr := true }
  else if g = .cmd then accept v s
  else storeReg g v s

/-- `MemWrite(off, width, v)` (R81). -/
def memWrite (width off : Nat) (v : Word) (s : State) : Except Fault State :=
  match accessed width off with
  | none => .error (.busError width off)
  | some g => .ok (writeWord g v s)

end Sys2Proof.Machine
end

