-- ==== Sys2Proof/Machine/HostBus.lean ====
section
/-! DEFINITION. The host's side of the bus: accesses at bus addresses (20_memory.md rule R70), what they answer, and the
host's control flow on STATUS (30_encoding.md rule R130, 70_reset_and_hazards.md rules R335 and R340). -/

namespace Sys2Proof.Machine

/-- The window offset of a bus address: BASE_ADDR + 0x000 to BASE_ADDR + 0xFFF (R70). -/
def windowOffset (baseAddr addr : Nat) : Option Nat :=
  if baseAddr ≤ addr ∧ addr < baseAddr + 4096 then some (addr - baseAddr) else none

/-- The host receives the answer of an access. -/
def respond (a : Response) (s : State) : State := { s with responses := a :: s.responses }

/-- A host read (R80). A bus error changes no engine state (R74). -/
def hostRead (width addr : Nat) (s : State) : State :=
  match windowOffset s.baseAddr addr with
  | none => respond .notAddressed s
  | some off =>
    match memRead width off s with
    | .error _ => respond .busError s
    | .ok (v, s') => respond (.data v) s'

/-- A host write (R81). A bus error changes no engine state (R74). -/
def hostWrite (width addr : Nat) (v : Word) (s : State) : State :=
  match windowOffset s.baseAddr addr with
  | none => respond .notAddressed s
  | some off =>
    match memWrite width off v s with
    | .error _ => respond .busError s
    | .ok s' => respond .done s'

/-- One turn of WAIT (R130): read STATUS, and if BUSY reads 1 let the engine step and poll again (log entry 10). -/
def hostWait (s : State) : State :=
  let (v, s') := readWord .status s
  let s'' := respond (.data v) s'
  if v.getLsbD 0 then { s'' with agenda := .engine :: .wait :: s''.agenda } else s''

/-- The host's branch on an error (R335): read STATUS, and skip the next `n` events if ERR reads other than 0. DESIGN CHOICE (log
entry 23), unsafe: 60_exceptions.md rule R316 has the host record the failure and gives no form for it; here the record is this
STATUS word among the host's answers, and none that names the run. -/
def hostSkipIfErr (n : Nat) (s : State) : State :=
  let (v, s') := readWord .status s
  let s'' := respond (.data v) s'
  if v.extractLsb' 4 4 = 0 then s'' else { s'' with agenda := s''.agenda.drop n }

end Sys2Proof.Machine
end

