-- ==== Sys2Proof/Machine/Engine.lean ====
section
/-! DEFINITION. The engine step and the events of a run (70_reset_and_hazards.md rules R330 and R345). -/

namespace Sys2Proof.Machine

/-- One engine step (R345): an idle engine keeps its state (60_exceptions.md rule R319). A running one decodes LCMD, completes
with ILLEGAL_CMD where the decoder rejects it (R303), and otherwise performs the command's step. -/
def engineStep (s : State) : Host.Outcome State Fault Refusal :=
  if s.stepPos = .idle then .next s
  else
    match decode s.lcmd with
    | .error _ => .next (raiseError .illegalCmd s)
    | .ok i => exec i s

/-- One event of a run (R345). -/
def perform (e : Event) (s : State) : Host.Outcome State Fault Refusal :=
  match e with
  | .engine => engineStep s
  | .read width addr => .next (hostRead width addr s)
  | .write width addr v => .next (hostWrite width addr v s)
  | .wait => .next (hostWait s)
  | .skipIfErr n => .next (hostSkipIfErr n s)
  | .reset => .next (resetEvent s)

/-- The next event of the agenda; once the agenda is empty the engine steps on (R346: the engine always makes progress). -/
def nextEvent (s : State) : Event × State :=
  match s.agenda with
  | [] => (.engine, s)
  | e :: rest => (e, { s with agenda := rest })

/-- The word latched, with an engine step as the very next event (log entry 4). -/
def latchCommand (w : Word) (s : State) : State :=
  { accept w s with agenda := .engine :: s.agenda }

end Sys2Proof.Machine
end

