-- ==== Sys2Proof/Machine/Step.lean ====
section
/-! DEFINITION. The step of the whole system: one atomic event of the agenda (70_reset_and_hazards.md rule R345). -/

namespace Sys2Proof.Machine

/-- One step of a run (R345). -/
def step (s : State) : Host.Outcome State Fault Refusal := perform (nextEvent s).1 (nextEvent s).2

/-- `s` with the command word `w` (its `nbits` low bits) accepted, so that the very next step is the engine's step on it. A
command is not fetched: a host write to CMD latches it (R39), and this stands for that write (log entry 4). -/
def State.withFetchWord (s : State) (nbits w : Nat) : State := latchCommand (BitVec.ofNat 32 (w % 2 ^ nbits)) s

end Sys2Proof.Machine
end

