-- ==== Sys2Proof/Machine/Assembler.lean ====
section
/-! DEFINITION. The specification's assembler syntax and its pseudo-commands (30_encoding.md rules R128 and R129), on lines
already split into a mnemonic and operands. No part of the engine. -/

namespace Sys2Proof.Machine

/-- An operand of an assembler line: a decimal number or a name. -/
inductive AsmOperand where
  | num (n : Nat)
  | name (s : String)
  deriving DecidableEq, Repr

/-- The name of a table in PERMUTE (R128). -/
def Table.ofName (s : String) : Option Table :=
  if s = "IP" then some .ip
  else if s = "IPINV" then some .ipInv
  else if s = "E" then some .e
  else if s = "P" then some .p
  else if s = "PC1" then some .pc1
  else if s = "PC2" then some .pc2
  else none

/-- The name of a target in ENCRYPT (R128). -/
def Target.ofName (s : String) : Option Target :=
  if s = "PT" then some .pt else if s = "KEY" then some .key else none

/-- The width a decimal operand names in XOR and HDIST (R128). -/
def Width.ofBits (n : Nat) : Option Width := Width.all.find? fun w => w.bits == n

/-- A command line of format W: two widths, or the pseudo-command's one for both (R128, R129). -/
def asmWidths (f : Width → Width → Instr) (ops : List AsmOperand) : Option Instr :=
  match ops with
  | [.num a] => (Width.ofBits a).map fun w => f w w
  | [.num a, .num b] => (Width.ofBits a).bind fun wa => (Width.ofBits b).map fun wb => f wa wb
  | _ => none

/-- ENCRYPT with its three operands, or the pseudo-command with none (R128, R129). -/
def asmEncrypt (ops : List AsmOperand) : Option Instr :=
  match ops with
  | [] => some (.encrypt false .pt 0)
  | [.num pen, .name t, .num pos] =>
    if pen ≤ 1 then (Target.ofName t).map fun tgt => .encrypt (pen == 1) tgt pos else none
  | _ => none

/-- SBOX i, with i in 0..7 (R128). -/
def asmSbox (ops : List AsmOperand) : Option Instr :=
  match ops with
  | [.num i] => if h : i < 8 then some (.sbox ⟨i, h⟩) else none
  | _ => none

/-- A command with no operands (R128). -/
def asmPlain (i : Instr) (ops : List AsmOperand) : Option Instr :=
  match ops with
  | [] => some i
  | _ => none

/-- A command whose one operand is a number (R128, R129). -/
def asmNumber (f : Nat → Instr) (ops : List AsmOperand) : Option Instr :=
  match ops with
  | [.num n] => some (f n)
  | _ => none

/-- PERMUTE table (R128). -/
def asmPermute (ops : List AsmOperand) : Option Instr :=
  match ops with
  | [.name t] => (Table.ofName t).map Instr.permute
  | _ => none

/-- The command a line writes, before its operand ranges are checked (R128, R129). -/
def asmCommand (mnemonic : String) (ops : List AsmOperand) : Option Instr :=
  if mnemonic = "NOP" then asmPlain .nop ops
  else if mnemonic = "KSCHED" then asmPlain .ksched ops
  else if mnemonic = "FEVAL" then asmPlain .feval ops
  else if mnemonic = "AN.CLEAR" then asmPlain .anClear ops
  else if mnemonic = "AN.BASE" then asmPlain .anBase ops
  else if mnemonic = "AN.ACC" then asmPlain .anAcc ops
  else if mnemonic = "ENCRYPT" then asmEncrypt ops
  else if mnemonic = "ENCRYPT.PT" then asmNumber (.encrypt true .pt) ops
  else if mnemonic = "ENCRYPT.KEY" then asmNumber (.encrypt true .key) ops
  else if mnemonic = "PERMUTE" then asmPermute ops
  else if mnemonic = "ROTL28" then asmNumber .rotl28 ops
  else if mnemonic = "XOR" then asmWidths .xor ops
  else if mnemonic = "HDIST" then asmWidths .hdist ops
  else if mnemonic = "SBOX" then asmSbox ops
  else none

/-- The word of a line; an operand outside its range has no encoding, and the assembler rejects it (R128). -/
def assemble (mnemonic : String) (ops : List AsmOperand) : Option Word :=
  (asmCommand mnemonic ops).bind fun i => if i.wellFormed then some (encode i) else none

end Sys2Proof.Machine
end

