-- ==== Sys2Proof/Machine/HexText.lean ====
section
/-! DEFINITION. The host boundary: hexadecimal text (40_bitvector.md section 2). No engine hardware (00_scope.md rule R6(c)):
the host turns configuration text into register words, and register words into sink text, with these two functions. A text is
its list of characters. -/

namespace Sys2Proof.Machine

/-- Why hexToBits fails: InvalidInputError, which no register and no ERR code ever shows (60_exceptions.md rule R310). -/
inductive HexError where
  | invalidInput
  deriving DecidableEq, Repr

/-- The separator characters, stripped before anything else (R147(b)). -/
def isSeparator (ch : Char) : Bool :=
  ch == ' ' || ch == '\t' || ch == '\r' || ch == '\n' || ch == ':' || ch == '-' || ch == '_'

/-- The value of a hexadecimal digit, either case; no other character has one (R146). -/
def hexDigitValue (ch : Char) : Option Nat :=
  if '0' ≤ ch ∧ ch ≤ '9' then some (ch.toNat - '0'.toNat)
  else if 'A' ≤ ch ∧ ch ≤ 'F' then some (ch.toNat - 'A'.toNat + 10)
  else if 'a' ≤ ch ∧ ch ≤ 'f' then some (ch.toNat - 'a'.toNat + 10)
  else none

/-- The number a text of digits writes, first digit most significant; none if a character is no digit (R146). -/
def hexNumber (digits : List Char) : Option Nat :=
  digits.foldl (fun acc ch => acc.bind fun n => (hexDigitValue ch).map fun v => 16 * n + v) (some 0)

/-- `hexToBits(hex, width)` (R146, R147): zero bits pad on the left, and truncation keeps the last `width` bits, so the text
is read as a number modulo 2^width. -/
def hexToBits (hex : List Char) (width : Nat) : Except HexError (BitVec width) :=
  let digits := hex.filter fun ch => !isSeparator ch
  if digits.isEmpty then .error .invalidInput
  else
    match hexNumber digits with
    | none => .error .invalidInput
    | some n => .ok (BitVec.ofNat width n)

/-- The uppercase hexadecimal digit of a 4-bit group (R148). -/
def hexDigit (v : Nat) : Char :=
  if v < 10 then Char.ofNat ('0'.toNat + v) else Char.ofNat ('A'.toNat + (v - 10))

/-- The last `n` hexadecimal digits of a number, most significant first. -/
def hexDigits : Nat → Nat → List Char
  | 0, _ => []
  | n + 1, v => hexDigits n (v / 16) ++ [hexDigit (v % 16)]

/-- How many zero bits pad a width on the right to a multiple of 4 (R148). -/
def rightPadding (w : Nat) : Nat := (4 - w % 4) % 4

/-- `bitsToHex(b)` (R148). -/
def bitsToHex {w : Nat} (b : BitVec w) : List Char :=
  hexDigits ((w + rightPadding w) / 4) (b.toNat * 2 ^ rightPadding w)

end Sys2Proof.Machine
end

