-- ==== Sys2Proof/Machine/HostProgram.lean ====
section
/-! DEFINITION. The notation of host programs (30_encoding.md rule R130) as lists of events for the agenda, and the
analysis sequence (70_reset_and_hazards.md rule R335). Host software, no part of the engine; `baseAddr` in each is the
window's bus address BASE_ADDR. -/

namespace Sys2Proof.Machine

/-- `W reg, v`. -/
def hostW (baseAddr : Nat) (g : Reg) (v : Word) : List Event := [.write 4 (baseAddr + g.offset) v]

/-- `W64 reg, v`: the HI word, then the LO word. -/
def hostW64 (baseAddr : Nat) (f : Half → Reg) (v : Block) : List Event :=
  hostW baseAddr (f .hi) (hiWord v) ++ hostW baseAddr (f .lo) (loWord v)

/-- `R reg`. -/
def hostR (baseAddr : Nat) (g : Reg) : List Event := [.read 4 (baseAddr + g.offset)]

/-- `R64 reg`: the HI word, then the LO word. -/
def hostR64 (baseAddr : Nat) (f : Half → Reg) : List Event := hostR baseAddr (f .hi) ++ hostR baseAddr (f .lo)

/-- `CMD c`. -/
def hostCmd (baseAddr : Nat) (i : Instr) : List Event := hostW baseAddr .cmd (encode i)

/-- `RUN c`: the command, then WAIT. -/
def hostRun (baseAddr : Nat) (i : Instr) : List Event := hostCmd baseAddr i ++ [.wait]

/-- What the Trace Sink takes of a run's rounds: TRACE_L and TRACE_R of every round, then CT (40_bitvector.md rule R151). -/
def traceReads (baseAddr : Nat) : List Event :=
  (List.finRange 16).flatMap (fun r => hostR64 baseAddr (.trace r)) ++ hostR64 baseAddr .ct

/-- What follows a run's ENCRYPT in the analysis when it did not fail (R335): the sinks' reads, AN.ACC, HD_LAST[16]. -/
def runTail (baseAddr : Nat) : List Event :=
  traceReads baseAddr ++ hostR64 baseAddr .wkey ++ hostR64 baseAddr .wpt ++ hostRun baseAddr .anAcc ++
    hostR baseAddr (.hdLast 15)

/-- One perturbed run of the analysis: a failed ENCRYPT skips the rest of its run (R335, 60_exceptions.md rule R316; how the
failure is recorded: log entry 23). DESIGN CHOICE (log entry 24), unsafe: a draw with a position above 127 has no
encoding (30_encoding.md rule R128), and neither R335 nor 40_bitvector.md rule R150 says what the host then does; here the word issued
holds the position modulo 128. -/
def analysisRun (baseAddr : Nat) (run : Bool × Target × Nat) : List Event :=
  hostRun baseAddr (.encrypt run.1 run.2.1 run.2.2) ++ [.skipIfErr (runTail baseAddr).length] ++ runTail baseAddr

/-- The accumulators of every round, read for the Analysis Sink (R335, 44_analyzer.md rule R274). -/
def accReads (baseAddr : Nat) : List Event :=
  (List.finRange 16).flatMap fun r =>
    hostR64 baseAddr (.sum r) ++ hostR baseAddr (.count r) ++ hostR baseAddr (.minmax r)

/-- What follows a baseline ENCRYPT that did not fail (R335); `runs` are the host's draws (40_bitvector.md rule R150). -/
def analysisTail (baseAddr : Nat) (runs : List (Bool × Target × Nat)) : List Event :=
  let rest := runs.flatMap (analysisRun baseAddr) ++ accReads baseAddr
  hostRun baseAddr .anClear ++ hostRun baseAddr .anBase ++ [.skipIfErr rest.length] ++ rest

/-- The analysis sequence (R335): a failed baseline ENCRYPT or AN.BASE ends the analysis (R316). -/
def analysisSequence (baseAddr : Nat) (key pt : Block) (runs : List (Bool × Target × Nat)) : List Event :=
  hostW64 baseAddr .key key ++ hostW64 baseAddr .pt pt ++ hostRun baseAddr (.encrypt false .pt 0) ++
    [.skipIfErr (analysisTail baseAddr runs).length] ++ analysisTail baseAddr runs

end Sys2Proof.Machine
end

