-- ==== Sys2Proof/Machine/HostReport.lean ====
section
/-! DEFINITION. What the host forms from the registers it reads: the reported statistics of a round (44_analyzer.md rule R274)
and the sinks' records (40_bitvector.md rule R151). Host software, no part of the engine. -/

namespace Sys2Proof.Machine

/-- The statistics of one round: with no sample there is no mean, minimum or maximum (R274). -/
structure RoundReport where
  count : Nat
  mean  : Option Rat
  min   : Option Nat
  max   : Option Nat
  deriving DecidableEq, Repr

/-- The report of a round's accumulators: the mean is the exact rational SUM / COUNT (R274). -/
def roundReport (a : Acc) : RoundReport :=
  if a.count = 0 then { count := 0, mean := none, min := none, max := none }
  else
    { count := a.count.toNat
      mean := some ((a.sum.toNat : Rat) / (a.count.toNat : Rat))
      min := some a.min.toNat
      max := some a.max.toNat }

/-- The three texts the Trace Sink takes of one round: L_r and R_r with 8 digits each, and L_r || R_r with 16 (R151). -/
def traceTexts (entry : Block) : List Char × List Char × List Char :=
  (bitsToHex (hiWord entry), bitsToHex (loWord entry), bitsToHex entry)

/-- What the host itself knows of a run: its identifier, the perturbation it chose, and the time it measured, in its own unit
(R150, R151, 60_exceptions.md rules R315 and R316; log entry 16). DESIGN CHOICE (log entry 22), unsafe: `elapsed` is a non-negative
rational, where R315 says a non-negative value under no law and the spec leaves unit and resolution open. -/
structure RunInfo where
  identifier : Nat
  perturbed  : Bool
  target     : Target
  position   : Nat
  elapsed    : ℚ≥0
  deriving DecidableEq

/-- The ENCRYPT a run issues (R150). -/
def RunInfo.command (info : RunInfo) : Instr := .encrypt info.perturbed info.target info.position

/-- The command `i` is the last one accepted, and it has completed with ERR = 0: the moment of R151's 'after the run's ENCRYPT has
completed with ERR = 0'. BUSY, DONE and ERR are what the host reads; LCMD keeps the word the host last had accepted. -/
def hasSucceeded (i : Instr) (s : State) : Bool :=
  decide (s.busy = false ∧ s.done = true ∧ s.err = .none ∧ decode s.lcmd = .ok i)

/-- What the Trace Sink takes of a run (R151). -/
structure TraceRecord where
  info   : RunInfo
  rounds : List (List Char × List Char × List Char)
  ct     : List Char
  deriving DecidableEq

/-- What the Summary Sink takes of a run (R151). -/
structure SummaryRecord where
  info : RunInfo
  ct   : List Char
  deriving DecidableEq

/-- What the Analysis Sink takes: each round's statistics, and each run's final-round distance (R151, R274). -/
structure AnalysisRecord where
  rounds         : List RoundReport
  finalDistances : List Nat
  deriving DecidableEq, Repr

/-- The Trace Sink's record, formed in the state in which the run's ENCRYPT has completed; a failed run's trace is sent to no sink
(R151, 60_exceptions.md rule R316). -/
def traceSink (info : RunInfo) (s : State) : Option TraceRecord :=
  if hasSucceeded info.command s then
    some { info := info, rounds := s.trace.toList.map traceTexts, ct := bitsToHex s.ct }
  else none

/-- The Summary Sink's record, formed in the state in which the run's ENCRYPT has completed; none of a failed run (R151, R316). -/
def summarySink (info : RunInfo) (s : State) : Option SummaryRecord :=
  if hasSucceeded info.command s then some { info := info, ct := bitsToHex s.ct } else none

/-- A run's final-round distance: HD_LAST[16] in the state in which the run's AN_ACC has completed. A failed run issues no AN_ACC and
has none (R151, R316). DESIGN CHOICE (log entry 25), unsafe: a run whose ENCRYPT succeeded and whose AN_ACC then completed with an error
has none either, where R151, R316 and 70_reset_and_hazards.md rule R335 say nothing of a failed AN_ACC. -/
def finalDistance (s : State) : Option Nat :=
  if hasSucceeded .anAcc s then some s.hdLast[15].toNat else none

/-- The Analysis Sink's record: the statistics of every round in the state after the last run, and the final-round distance of every
run, taken from the states in which the runs ended, in their order (a run whose
AN_ACC failed gives none: log entry 25). `baseline` is the state in which the baseline's AN_BASE, or the
ENCRYPT before it, ended: where either failed, the sink receives nothing (R151, R274, R316). -/
def analysisSink (baseline : State) (runEnds : List State) (last : State) : Option AnalysisRecord :=
  if hasSucceeded .anBase baseline then
    some { rounds := last.acc.toList.map roundReport, finalDistances := runEnds.filterMap finalDistance }
  else none

end Sys2Proof.Machine
end

