-- ==== Sys2Proof/Safety.lean ====
section
/-! DEFINITION. The terms in which claims about the machine are made: the cipher as one pure function, the invariants of
the engine, and runs of engine steps. -/

namespace Sys2Proof.Safety

open Sys2Proof.Machine

/-! ## The cipher as a function of the working key and plaintext -/

/-- `(L_r, R_r)` of the encryption of `pt` under `key` (43_feistel.md rules R244 and R245). -/
def desHalves (key pt : Block) : Nat → HalfBlock × HalfBlock
  | 0 => initialHalves pt
  | r + 1 => feistelRound (desHalves key pt r) (subkeyOf (keyHalves key (r + 1)))

/-- The trace entry `L_(r+1) || R_(r+1)` (R251). -/
def desTrace (key pt : Block) (r : Round) : Block :=
  (desHalves key pt (r.val + 1)).1 ++ (desHalves key pt (r.val + 1)).2

/-- The ciphertext (R246). -/
def desEncrypt (key pt : Block) : Block := finalBlock (desHalves key pt 16)

/-! ## Table shapes -/

/-- The width of a table's operand in OPA (30_encoding.md rule R114). -/
def inWidth : Table → Nat
  | .ip => 64
  | .ipInv => 64
  | .e => 32
  | .p => 32
  | .pc1 => 64
  | .pc2 => 56

/-- A table's entries, T[1] first; their number is the width of its result (R114). -/
def entries : Table → List Nat
  | .ip => tableIP.toList
  | .ipInv => tableIPInv.toList
  | .e => tableE.toList
  | .p => tableP.toList
  | .pc1 => tablePC1.toList
  | .pc2 => tablePC2.toList

/-- SHIFT[1] + ... + SHIFT[r], how far both key halves have been rotated by round `r` (41_key_schedule.md rule R184). -/
def totalShift (r : Nat) : Nat := (shiftSchedule.toList.take r).sum

/-! ## Invariants of the engine -/

/-- LCMD holds an ENCRYPT that passes its checks (43_feistel.md rule R254). -/
def RunsEncrypt (s : State) : Prop :=
  ∃ pen tgt pos, decode s.lcmd = .ok (.encrypt pen tgt pos) ∧ positionOk pen pos = true

/-- Between encryptions the controller is in INITIAL with no trace, or in FINAL with a whole one (R40, R250, R251). -/
def BetweenRuns (s : State) : Prop :=
  (s.fstate = .initial ∧ s.tvalid = 0) ∨ (s.fstate = .final ∧ s.tvalid = allRounds)

/-- The controller and the trace masks agree with STEP (R243 to R246, R345). -/
def PhaseOk (s : State) : Prop :=
  match s.stepPos with
  | .idle => BetweenRuns s
  | .first => BetweenRuns s
  | .round r =>
    RunsEncrypt s ∧ s.tvalid = BitVec.ofNat 16 (2 ^ r.val - 1) ∧
      s.fstate = if h : r.val = 0 then .initial else .round ⟨r.val - 1, by omega⟩
  | .last => RunsEncrypt s ∧ s.tvalid = allRounds ∧ s.fstate = .round 15

/-- The control state is a legal one. -/
structure ControlInv (s : State) : Prop where
  /-- BUSY = 1 exactly while a command is latched (R33, R345). -/
  busy_iff : s.busy = true ↔ s.stepPos ≠ .idle
  /-- DONE is 0 from acceptance to completion (R34). -/
  done_clear : s.busy = true → s.done = false
  /-- FSTATE and TVALID are those of the step reached. -/
  phase : PhaseOk s
  /-- A baseline was copied from a whole trace, and between encryptions the trace stays whole (44_analyzer.md rule R286). -/
  baseline : s.baseValid = true → s.stepPos = .idle ∨ s.stepPos = .first → s.tvalid = allRounds
  /-- The window is 4 KiB aligned (00_scope.md rule R8). -/
  aligned : s.baseAddr % 4096 = 0

/-- The cipher registers hold what the cipher function says of the working key and plaintext: the whole trace and the
ciphertext after FINAL, the halves and the rounds done so far during an encryption (R245, R246, R251, R253). -/
def CipherInv (s : State) : Prop :=
  match s.stepPos with
  | .idle => s.fstate = .final → (∀ r : Round, s.trace[r] = desTrace s.wkey s.wpt r) ∧ s.ct = desEncrypt s.wkey s.wpt
  | .first => s.fstate = .final → (∀ r : Round, s.trace[r] = desTrace s.wkey s.wpt r) ∧ s.ct = desEncrypt s.wkey s.wpt
  | .round i =>
    s.sk = schedule s.wkey ∧ (s.l, s.r) = desHalves s.wkey s.wpt i.val ∧
      ∀ r : Round, r.val < i.val → s.trace[r] = desTrace s.wkey s.wpt r
  | .last =>
    (s.l, s.r) = desHalves s.wkey s.wpt 16 ∧ ∀ r : Round, s.trace[r] = desTrace s.wkey s.wpt r

/-- A round's accumulators hold a sample set's aggregates: none, or a COUNT of samples between MIN and MAX, all at most 64, with
SUM between COUNT times each (10_state.md rule R53, 44_analyzer.md rules R273 and R287). -/
def AccOk (a : Acc) : Prop :=
  (a.count = 0 → a = Acc.empty) ∧
  (a.count ≠ 0 → a.min.toNat ≤ a.max.toNat ∧ a.max.toNat ≤ 64 ∧
    a.count.toNat * a.min.toNat ≤ a.sum.toNat ∧ a.sum.toNat ≤ a.count.toNat * a.max.toNat)

/-- Every round's accumulators are aggregates, and a valid HD_LAST is a distance, 0..64 (R41, R52). -/
def AnalyzerInv (s : State) : Prop :=
  ∀ r : Round, AccOk s.acc[r] ∧ (s.hdvalid.getLsbD r.val = true → s.hdLast[r].toNat ≤ 64)

/-! ## Register words -/

/-- The two words of a register: HI at an offset, LO at the next word (20_memory.md rule R75). -/
def pairAt (f : Half → Reg) (off : Nat) : Prop := (f .hi).offset = off ∧ (f .lo).offset = off + 4

/-- A word read at a window offset returns a word with these 32 bits, bit 0 the least significant, and changes nothing
(20_memory.md rules R75 and R80). -/
def readsAs (s : State) (off : Nat) (bits : Nat → Bool) : Prop :=
  ∃ w : Word, memRead 4 off s = .ok (w, s) ∧ ∀ k, k < 32 → w.getLsbD k = bits k

/-- Two words read as one register of 64 bits: its bits 63:32 at an offset, its bits 31:0 at the next word (R75). -/
def readsAsPair (s : State) (off : Nat) (bits : Nat → Bool) : Prop :=
  readsAs s off (fun k => bits (32 + k)) ∧ readsAs s (off + 4) bits

/-- `new` is `old` with the word `v` in the named half: HI is bits 63:32, LO bits 31:0 (R75). -/
def halfReplaced (h : Half) (old : Block) (v : Word) (new : Block) : Prop :=
  match h with
  | .hi => (∀ k, k < 32 → new.getLsbD (32 + k) = v.getLsbD k) ∧ ∀ k, k < 32 → new.getLsbD k = old.getLsbD k
  | .lo => (∀ k, k < 32 → new.getLsbD k = v.getLsbD k) ∧ ∀ k, k < 32 → new.getLsbD (32 + k) = old.getLsbD (32 + k)

/-! ## Runs -/

/-- `n` steps of the machine (Host.Core.run). -/
def run (n : Nat) (s : State) : Host.Outcome State Fault Refusal := Host.Core.run Sys2Proof.core n s

/-- The next event of a run (70_reset_and_hazards.md rule R345). -/
def eventOf (s : State) : Event := (nextEvent s).1

/-- The command `i` has been accepted and no step of it is taken yet; no host event is left, so only the engine moves (R345). -/
def Accepted (i : Instr) (s : State) : Prop :=
  s.agenda = [] ∧ s.busy = true ∧ s.stepPos = .first ∧ decode s.lcmd = .ok i

/-- A host access: a read or a write, as against an engine step, a reset or the host's control flow (R345). -/
def IsAccess (e : Event) : Prop :=
  (∃ width addr, e = .read width addr) ∨ ∃ width addr v, e = .write width addr v

/-- The state with its completion flags set: the four fields every completing command writes (R59). -/
def finished (e : ErrCode) (s : State) : State :=
  { s with busy := false, done := true, err := e, stepPos := .idle }

end Sys2Proof.Safety
end

