-- ==== Sys2Proof/Certificates/Slice0/Obligations.lean ====
section
/-! DEFINITION. The statements for the provers. Each formalises rules of the specification; a clause that rests on a choice of
the model says so. -/

open Sys2Proof Sys2Proof.Machine Sys2Proof.Safety

/-! ## Encoding -/

/-- Decoding the encoding of a well-formed command gives it back (30_encoding.md rules R112 to R121, R127). -/
def Obligations.DecodeOfEncodeIsTheCommand : Prop :=
  ∀ i : Instr, i.wellFormed = true → decode (encode i) = .ok i

/-- Every word that decodes is the one encoding of its command (R110, R123, R127). -/
def Obligations.EncodeOfDecodeIsTheWord : Prop :=
  ∀ (w : Word) (i : Instr), decode w = .ok i → i.wellFormed = true ∧ encode i = w

/-- R126: every word selects one command of the map, or its command completes with ILLEGAL_CMD and changes nothing else. -/
def Obligations.EveryWordSelectsOneCommandOrIsIllegal : Prop :=
  ∀ s : State, s.stepPos ≠ .idle →
    (∃ i, decode s.lcmd = .ok i ∧ s.lcmd &&& i.opcode.mask = i.opcode.matchWord ∧
        (∀ op : Opcode, s.lcmd &&& op.mask = op.matchWord → op = i.opcode) ∧ engineStep s = exec i s) ∨
      ((∃ r, decode s.lcmd = .error r) ∧ engineStep s = .next (finished .illegalCmd s))

/-- The words of rule R131 decode as it says; three illegal words of 95_test_vectors.md V24, and the PERMUTE word with TSEL = 6 of
V10 (R124), are rejected. -/
def Obligations.SpecifiedWordsDecode : Prop :=
  decode 0x00000002 = .ok (.encrypt false .pt 0) ∧ decode 0x00010102 = .ok (.encrypt true .pt 1) ∧
  decode 0x00410102 = .ok (.encrypt true .pt 65) ∧ decode 0x00390302 = .ok (.encrypt true .key 57) ∧
  decode 0x00000210 = .ok (.permute .e) ∧ decode 0x00000510 = .ok (.permute .pc2) ∧
  decode 0x00000211 = .ok (.rotl28 2) ∧ decode 0x00003312 = .ok (.xor .w32 .w32) ∧
  decode 0x00003012 = .ok (.xor .w64 .w32) ∧ decode 0x00000015 = .ok (.hdist .w64 .w64) ∧
  decode 0x00000713 = .ok (.sbox 7) ∧ decode 0x00000022 = .ok .anAcc ∧
  decode 0x00000003 = .error .reservedOpcode ∧ decode 0x00000813 = .error .reservedBit ∧
  decode 0x00000610 = .error .reservedField ∧ decode 0x00007315 = .error .reservedField

/-! ## The step -/

/-- A step runs the decoded command: with a command latched, an engine event is `exec` of it on the state whose agenda has
lost that event; with the agenda empty the engine steps all the same (R127, R345; log entry 3). -/
def Obligations.StepRunsTheDecodedCommand : Prop :=
  ∀ (s : State) (i : Instr), s.stepPos ≠ .idle → decode s.lcmd = .ok i →
    (s.agenda = [] → step s = exec i s) ∧
    (∀ rest, s.agenda = .engine :: rest → step s = exec i { s with agenda := rest })

/-- An accepted word's very next step is its command's (log entry 4): what `State.withFetchWord` stands for. -/
def Obligations.AcceptedWordRunsNext : Prop :=
  ∀ (s : State) (w : Word) (i : Instr), decode w = .ok i →
    step (s.withFetchWord 32 w.toNat) =
      exec i { s with lcmd := w, busy := true, done := false, stepPos := .first }

/-- Every step of every state goes on: no bus access, command word, operand or state ends a run (R74, R126). -/
def Obligations.EveryStepAnswersANextState : Prop :=
  ∀ s : State, ∃ t, step s = .next t

/-- An idle engine keeps all its state (60_exceptions.md rule R319) until a write to CMD accepts a command: the word is latched, BUSY
is set and DONE cleared in that same write (R33, R34, R39, R88), and a step of the system whose event is the host's write at
BASE_ADDR + 0x008 does so (R70, R81). -/
def Obligations.IdleEngineWaitsForACommand : Prop :=
  (∀ s : State, s.stepPos = .idle →
    engineStep s = .next s ∧ (s.agenda = [] → step s = .next s) ∧
      ∀ rest, s.agenda = .engine :: rest → step s = .next { s with agenda := rest }) ∧
  (∀ (s : State) (v : Word), s.busy = false →
    memWrite 4 0x008 v s = .ok { s with lcmd := v, busy := true, done := false, stepPos := .first }) ∧
  (∀ (s : State) (v : Word) (rest : List Event), s.busy = false → s.agenda = .write 4 (s.baseAddr + 0x008) v :: rest →
    step s = .next { s with
      lcmd := v, busy := true, done := false, stepPos := .first, agenda := rest, responses := .done :: s.responses })

/-- Every command but ENCRYPT has one step, and completes in it (R345). -/
def Obligations.OtherCommandsCompleteInOneStep : Prop :=
  ∀ (i : Instr) (s : State), (∀ pen tgt pos, i ≠ .encrypt pen tgt pos) →
    ∃ t, exec i s = .next t ∧ t.busy = false ∧ t.done = true ∧ t.stepPos = .idle

/-- A host that runs WAIT terminates: with a legal control state, at most 18 engine steps and 19 polls later BUSY is 0 and the
host goes on (R346; one engine step between two polls is log entry 10's choice). -/
def Obligations.WaitTerminates : Prop :=
  ∀ (s : State) (rest : List Event), ControlInv s → s.agenda = .wait :: rest →
    ∃ n t, n ≤ 37 ∧ run n s = .next t ∧ t.busy = false ∧ t.agenda = rest

/-! ## Commands of the bit-vector primitives -/

/-- NOP writes BUSY, DONE and ERR alone (40_bitvector.md rule R152). -/
def Obligations.NopOnlyCompletes : Prop :=
  ∀ s : State, exec .nop s = .next { s with busy := false, done := true, err := .none, stepPos := .idle }

/-- PERMUTE moves DES bit T[j+1] of its operand to DES bit j+1 of its result, for each of the six tables; RES is zero above
the result, OPA's bits above the operand do not reach it, and nothing else is written (R140, R153). -/
def Obligations.PermuteMovesTheTablesBits : Prop :=
  ∀ (t : Table) (s : State), ∃ v : Block,
    exec (.permute t) s = .next (finished .none { s with res := v }) ∧
    (∀ j, j < (entries t).length →
      v.getLsbD ((entries t).length - 1 - j) = s.opa.getLsbD (inWidth t - (entries t).getD j 0)) ∧
    ∀ k, (entries t).length ≤ k → v.getLsbD k = false

/-- ROTL28 rotates OPA[27:0] left by N modulo 28 (R141, R155). -/
def Obligations.Rotl28RotatesModulo28 : Prop :=
  ∀ (n : Nat) (s : State), ∃ v : Block,
    exec (.rotl28 n) s = .next (finished .none { s with res := v }) ∧
    (∀ i, i < 28 → v.getLsbD (27 - i) = s.opa.getLsbD (27 - (i + n) % 28)) ∧
    ∀ k, 28 ≤ k → v.getLsbD k = false

/-- XOR of two operands of one width, bit by bit, at every width (R142, R157). -/
def Obligations.XorOfOneWidth : Prop :=
  ∀ (w : Width) (s : State), ∃ v : Block,
    exec (.xor w w) s = .next (finished .none { s with res := v }) ∧
    ∀ k, v.getLsbD k = (decide (k < w.bits) && (s.opa.getLsbD k ^^ s.opb.getLsbD k))

/-- XOR and HDIST with widths that differ raise LENGTH_MISMATCH and write nothing else (R157, R280, R305). -/
def Obligations.UnequalWidthsRaiseLengthMismatch : Prop :=
  ∀ (wa wb : Width) (s : State), wa ≠ wb →
    exec (.xor wa wb) s = .next { s with busy := false, done := true, err := .lengthMismatch, stepPos := .idle } ∧
    exec (.hdist wa wb) s = .next { s with busy := false, done := true, err := .lengthMismatch, stepPos := .idle }

/-! ## Round core -/

/-- SBOX looks up row `2*v[5] + v[0]`, column `v[4:1]` of its box, where v is OPA[5:0] (R214, R220). -/
def Obligations.SboxLooksUpRowAndColumn : Prop :=
  ∀ (box : Fin 8) (s : State), ∃ (row : Fin 4) (col : Fin 16),
    row.val = 2 * (s.opa.getLsbD 5).toNat + (s.opa.getLsbD 0).toNat ∧ col.val = s.opa.toNat / 2 % 16 ∧
    exec (.sbox box) s = .next (finished .none { s with res := BitVec.ofNat 64 (sboxes[box])[row][col] })

/-- FEVAL: expansion by E, key mixing, the eight lanes side by side, and P, each bit by bit; the bits of OPA and OPB above 32
and 48 do not reach RES (R213, R215, R216, R222). -/
def Obligations.FevalIsExpandMixSubstitutePermute : Prop :=
  ∀ s : State, ∃ (x : BitVec 48) (sub : BitVec 32) (v : Block),
    exec .feval s = .next (finished .none { s with res := v }) ∧
    (∀ j, j < 48 → x.getLsbD (47 - j) = (s.opa.getLsbD (32 - tableE.toList.getD j 0) ^^ s.opb.getLsbD (47 - j))) ∧
    (∀ i : Fin 8, sub.extractLsb' (28 - 4 * i.val) 4 = sbox i (x.extractLsb' (42 - 6 * i.val) 6)) ∧
    (∀ j, j < 32 → v.getLsbD (31 - j) = sub.getLsbD (32 - tableP.toList.getD j 0)) ∧
    ∀ k, 32 ≤ k → v.getLsbD k = false

/-- R217: F depends on R and K only through `permute(R, E) XOR K`. -/
def Obligations.RoundFunctionDependsOnMixedInputOnly : Prop :=
  (∀ (r r' : HalfBlock) (k k' : Subkey), permute tableE r ^^^ k = permute tableE r' ^^^ k' → roundF r k = roundF r' k') ∧
  (∀ (r m : HalfBlock) (k : Subkey), roundF (r ^^^ m) (k ^^^ permute tableE m) = roundF r k) ∧
  roundF 0x00000000 0x000000000000 = 0xD8D8DBBC ∧ roundF 0xFFFFFFFF 0xFFFFFFFFFFFF = 0xD8D8DBBC

/-! ## Subkey scheduler -/

/-- KSCHED writes the schedule of KEY, C and D and nothing else; each subkey bit is the key bit that PC-2, the rotation total of
its round, and PC-1 lead to (R180 to R186). -/
def Obligations.KschedSelectsKeyBits : Prop :=
  ∀ s : State, ∃ t : State, exec .ksched s = .next t ∧
    t = finished .none { s with sk := t.sk, c := t.c, d := t.d } ∧
    (∀ (r : Round) (j : Nat), j < 48 →
      t.sk[r].getMsbD j =
        s.key.getMsbD (tablePC1.toList.getD
          (let q := tablePC2.toList.getD j 0 - 1
           if q < 28 then (q + totalShift (r.val + 1)) % 28 else 28 + (q - 28 + totalShift (r.val + 1)) % 28) 0 - 1)) ∧
    (∀ j, j < 28 → t.c.getMsbD j = s.key.getMsbD (tablePC1.toList.getD j 0 - 1) ∧
      t.d.getMsbD j = s.key.getMsbD (tablePC1.toList.getD (28 + j) 0 - 1))

/-- R184: each half is rotated cumulatively, and after round 16 both are back where they began. -/
def Obligations.KeyHalvesRotateAndReturn : Prop :=
  ∀ key : Block,
    (∀ r : Round, (keyHalves key (r.val + 1)).1 = rotl (keyHalves key r.val).1 shiftSchedule[r] ∧
      (keyHalves key (r.val + 1)).2 = rotl (keyHalves key r.val).2 shiftSchedule[r]) ∧
    (∀ r, r ≤ 16 → (keyHalves key r).1 = rotl (keyHalves key 0).1 (totalShift r) ∧
      (keyHalves key r).2 = rotl (keyHalves key 0).2 (totalShift r)) ∧
    totalShift 16 = 28 ∧ keyHalves key 16 = keyHalves key 0

/-- R187: the key bits 8, 16, ..., 64 reach no subkey, so flipping one of them changes neither trace nor ciphertext. -/
def Obligations.ParityPositionsDoNotMatter : Prop :=
  ∀ key : Block,
    (∀ key' : Block, (∀ j, j < 64 → j % 8 ≠ 7 → key'.getMsbD j = key.getMsbD j) → schedule key' = schedule key) ∧
    ∀ (p : Nat) (pt : Block), 1 ≤ p → p ≤ 64 → p % 8 = 0 →
      desEncrypt (key ^^^ flipMask p) pt = desEncrypt key pt ∧
      ∀ r : Round, desTrace (key ^^^ flipMask p) pt r = desTrace key pt r ∧
        hd (desTrace (key ^^^ flipMask p) pt r) (desTrace key pt r) = 0

/-! ## Feistel controller -/

/-- R242: IP and IP^-1 are mutual inverses. -/
def Obligations.InitialAndFinalPermutationsAreInverse : Prop :=
  (∀ x : Block, permute tableIPInv (permute tableIP x) = x ∧ permute tableIP (permute tableIPInv x) = x) ∧
  ∀ i, 1 ≤ i → i ≤ 64 → tableIPInv.toList.getD (tableIP.toList.getD (i - 1) 0 - 1) 0 = i

/-- ENCRYPT's first step, when its checks pass: WPT and WKEY are PT and KEY with at most the one bit POS flipped in the target,
SK, C and D take the schedule of WKEY, TVALID is cleared, and L and R are the halves of IP of WPT; nothing else is written
(R244, R247 to R249, R254). -/
def Obligations.EncryptInitialStep : Prop :=
  ∀ (pen : Bool) (tgt : Target) (pos : Nat) (s : State), s.stepPos = .first → (pen = true → 1 ≤ pos ∧ pos ≤ 64) →
    ∃ t : State, exec (.encrypt pen tgt pos) s = .next t ∧
      (∀ j, j < 64 → t.wpt.getMsbD j = (s.pt.getMsbD j ^^ (pen && decide (tgt = .pt) && decide (j + 1 = pos)))) ∧
      (∀ j, j < 64 → t.wkey.getMsbD j = (s.key.getMsbD j ^^ (pen && decide (tgt = .key) && decide (j + 1 = pos)))) ∧
      t = { s with
        wkey := t.wkey, wpt := t.wpt, sk := schedule t.wkey, c := (keyHalves t.wkey 16).1, d := (keyHalves t.wkey 16).2,
        tvalid := 0, l := (permute tableIP t.wpt).extractLsb' 32 32, r := (permute tableIP t.wpt).extractLsb' 0 32,
        fstate := .initial, stepPos := .round 0 }

/-- A ROUND step: L and R from the old L and R, their join as the trace entry, that round's TVALID bit, FSTATE; every other
register, every other trace entry and every other TVALID bit is unchanged (R245, R251). -/
def Obligations.EncryptRoundStep : Prop :=
  ∀ (pen : Bool) (tgt : Target) (pos : Nat) (s : State) (i : Round), s.stepPos = .round i →
    ∃ t : State, exec (.encrypt pen tgt pos) s = .next t ∧
      t.l = s.r ∧ t.r = s.l ^^^ roundF s.r s.sk[i] ∧
      (∀ j : Round, t.trace[j] = if j = i then t.l ++ t.r else s.trace[j]) ∧
      (∀ j : Round, t.tvalid.getLsbD j.val = (s.tvalid.getLsbD j.val || decide (j = i))) ∧
      (∀ h : i.val < 15, t.stepPos = .round ⟨i.val + 1, by omega⟩) ∧ (i.val = 15 → t.stepPos = .last) ∧
      t = { s with
        l := t.l, r := t.r, trace := t.trace, tvalid := t.tvalid, fstate := .round i, stepPos := t.stepPos }

/-- The FINAL step (R246): CT is IP^-1 of R || L, so IP of CT is R || L; FSTATE is FINAL, and the command succeeds. -/
def Obligations.EncryptFinalStep : Prop :=
  ∀ (pen : Bool) (tgt : Target) (pos : Nat) (s : State), s.stepPos = .last →
    ∃ v : Block, exec (.encrypt pen tgt pos) s = .next { s with
        ct := v, fstate := .final, busy := false, done := true, err := .none, stepPos := .idle } ∧
      v = permute tableIPInv (s.r ++ s.l) ∧ permute tableIP v = s.r ++ s.l

/-- An ENCRYPT with PEN = 1 and POS outside 1..64 raises OUT_OF_RANGE at its first step and writes BUSY, DONE and ERR alone; an
OP of ENCRYPT with a reserved bit set raises ILLEGAL_CMD likewise, whatever its POS (R254, R258, R302, R304). -/
def Obligations.RejectedEncryptWritesNothing : Prop :=
  (∀ (tgt : Target) (pos : Nat) (s : State), s.stepPos = .first → ¬(1 ≤ pos ∧ pos ≤ 64) →
    exec (.encrypt true tgt pos) s = .next { s with busy := false, done := true, err := .outOfRange, stepPos := .idle }) ∧
  (∀ s : State, s.stepPos = .first → opField s.lcmd = 0x02 → s.lcmd &&& 0xFF80FC00 ≠ 0 →
    engineStep s = .next { s with busy := false, done := true, err := .illegalCmd, stepPos := .idle })

/-- Eighteen engine steps of an accepted ENCRYPT that passes its checks compute the cipher: CT, the whole trace, SK, C, D, L and R
are those of the working key and plaintext, TVALID is full, FSTATE is FINAL, the command has succeeded, and every other
register is unchanged (R243 to R255, R345). -/
def Obligations.EncryptComputesTheCipher : Prop :=
  ∀ (pen : Bool) (tgt : Target) (pos : Nat) (s : State), Accepted (.encrypt pen tgt pos) s → positionOk pen pos = true →
    run 18 s = .next (
      let wkey := workingKey pen tgt pos s.key
      let wpt := workingPt pen tgt pos s.pt
      { s with
        wkey := wkey, wpt := wpt, sk := schedule wkey, c := (keyHalves wkey 16).1, d := (keyHalves wkey 16).2,
        l := (desHalves wkey wpt 16).1, r := (desHalves wkey wpt 16).2, tvalid := allRounds,
        trace := Vector.ofFn fun r => desTrace wkey wpt r, ct := desEncrypt wkey wpt, fstate := .final,
        busy := false, done := true, err := .none, stepPos := .idle })

/-- The encryption of an accepted ENCRYPT is not disturbed by the host: with any reads and writes interleaved with its eighteen
engine steps, whatever they address and write, every register the encryption writes is as the KEY and PT that stood at
acceptance give it (20_memory.md rule R86, 70_reset_and_hazards.md rules R341 and R345). -/
def Obligations.HostAccessesCannotDisturbEncrypt : Prop :=
  ∀ (pen : Bool) (tgt : Target) (pos : Nat) (s : State) (evs : List Event),
    s.agenda = evs → s.busy = true → s.stepPos = .first → decode s.lcmd = .ok (.encrypt pen tgt pos) →
    positionOk pen pos = true → (∀ e ∈ evs, e = .engine ∨ IsAccess e) → evs.count .engine = 18 →
    ∃ t : State, run evs.length s = .next t ∧
      t.ct = desEncrypt (workingKey pen tgt pos s.key) (workingPt pen tgt pos s.pt) ∧
      (∀ r : Round, t.trace[r] = desTrace (workingKey pen tgt pos s.key) (workingPt pen tgt pos s.pt) r) ∧
      t.tvalid = allRounds ∧ t.fstate = .final ∧
      t.wkey = workingKey pen tgt pos s.key ∧ t.wpt = workingPt pen tgt pos s.pt ∧ t.sk = schedule t.wkey ∧
      (t.c, t.d) = keyHalves t.wkey 16 ∧ (t.l, t.r) = desHalves t.wkey t.wpt 16

/-- R256: for fixed KEY, PT and operands every ENCRYPT writes the same WKEY, WPT, SK, TRACE and CT; no other state affects
them. -/
def Obligations.EncryptIsDeterministic : Prop :=
  ∀ (pen : Bool) (tgt : Target) (pos : Nat) (s s' : State),
    Accepted (.encrypt pen tgt pos) s → Accepted (.encrypt pen tgt pos) s' → positionOk pen pos = true →
    s.key = s'.key → s.pt = s'.pt →
    ∃ t t' : State, run 18 s = .next t ∧ run 18 s' = .next t' ∧
      t.wkey = t'.wkey ∧ t.wpt = t'.wpt ∧ t.sk = t'.sk ∧ t.trace = t'.trace ∧ t.ct = t'.ct

/-- R257: after an ENCRYPT with PEN = 1 that passes its checks, exactly one of WPT XOR PT and WKEY XOR KEY is M(POS), the other
is 0, and the population count of their sum is 1. -/
def Obligations.PerturbationFlipsExactlyOneBit : Prop :=
  ∀ (tgt : Target) (pos : Nat) (s : State), Accepted (.encrypt true tgt pos) s → 1 ≤ pos → pos ≤ 64 →
    ∃ t : State, run 18 s = .next t ∧
      ((tgt = .pt ∧ t.wpt ^^^ t.pt = BitVec.ofNat 64 (2 ^ (64 - pos)) ∧ t.wkey ^^^ t.key = 0) ∨
        (tgt = .key ∧ t.wkey ^^^ t.key = BitVec.ofNat 64 (2 ^ (64 - pos)) ∧ t.wpt ^^^ t.pt = 0)) ∧
      popcount ((t.wpt ^^^ t.pt) + (t.wkey ^^^ t.key)) = 1

/-- The complementation property: enc(NOT pt, NOT key) = NOT enc(pt, key) (95_test_vectors.md V21, from R217). -/
def Obligations.ComplementationProperty : Prop :=
  ∀ key pt : Block, desEncrypt (~~~key) (~~~pt) = ~~~(desEncrypt key pt)

/-! ## Diffusion analyzer -/

/-- HDIST counts the bit positions below the width at which the operands differ (R270, R280). -/
def Obligations.HdistCountsDifferingBits : Prop :=
  ∀ (w : Width) (s : State), ∃ v : Block,
    exec (.hdist w w) s = .next (finished .none { s with res := v }) ∧
    v.toNat = ((List.range w.bits).filter fun k => s.opa.getLsbD k != s.opb.getLsbD k).length ∧ v.toNat ≤ w.bits

/-- AN_CLEAR empties every round's accumulators, HDVALID and BASE_VALID, and keeps BASE, HD_LAST and all else (R282). -/
def Obligations.AnClearEmptiesTheAnalyzer : Prop :=
  ∀ s : State, ∃ t : State, exec .anClear s = .next t ∧
    (∀ r : Round, t.acc[r].sum = 0 ∧ t.acc[r].count = 0 ∧ t.acc[r].min = 127 ∧ t.acc[r].max = 0) ∧
    t = { s with
      acc := t.acc, hdvalid := 0, baseValid := false, busy := false, done := true, err := .none, stepPos := .idle }

/-- AN_BASE copies a whole trace to BASE and sets BASE_VALID; without one it raises NO_TRACE and writes nothing else (R284,
R307). -/
def Obligations.AnBaseCopiesAWholeTrace : Prop :=
  ∀ s : State,
    (s.tvalid = 0xFFFF → exec .anBase s = .next { s with
      base := s.trace, baseValid := true, busy := false, done := true, err := .none, stepPos := .idle }) ∧
    (s.tvalid ≠ 0xFFFF → exec .anBase s = .next { s with
      busy := false, done := true, err := .noTrace, stepPos := .idle })

/-- AN_ACC with a baseline and no full COUNT: every round with data takes its distance into SUM, COUNT, MIN, MAX and HD_LAST and its
HDVALID bit is set; a round without data keeps them and its HDVALID bit is cleared (R271, R275, R286). -/
def Obligations.AnAccAccumulatesEveryIncludedRound : Prop :=
  ∀ s : State, s.baseValid = true →
    (∀ r : Round, s.tvalid.getLsbD r.val = true → s.acc[r].count.toNat < 2 ^ 32 - 1) →
    ∃ t : State, exec .anAcc s = .next t ∧
      (∀ r : Round, s.tvalid.getLsbD r.val = true →
        (t.hdLast[r]).toNat = ((List.range 64).filter fun k => s.trace[r].getLsbD k != s.base[r].getLsbD k).length ∧
        t.acc[r].sum.toNat = (s.acc[r].sum.toNat + t.hdLast[r].toNat) % 2 ^ 64 ∧
        t.acc[r].count.toNat = s.acc[r].count.toNat + 1 ∧
        t.acc[r].min.toNat = min s.acc[r].min.toNat t.hdLast[r].toNat ∧
        t.acc[r].max.toNat = max s.acc[r].max.toNat t.hdLast[r].toNat ∧ t.hdvalid.getLsbD r.val = true) ∧
      (∀ r : Round, s.tvalid.getLsbD r.val = false →
        t.hdLast[r] = s.hdLast[r] ∧ t.acc[r] = s.acc[r] ∧ t.hdvalid.getLsbD r.val = false) ∧
      t = { s with
        acc := t.acc, hdLast := t.hdLast, hdvalid := t.hdvalid, busy := false, done := true, err := .none,
        stepPos := .idle }

/-- Adding the samples of a list one by one to an empty accumulator gives the list's count, sum, minimum and maximum, whatever
the order (R273); 127 and 0 stand for no sample (R53). -/
def Obligations.AccumulatorsHoldTheAggregates : Prop :=
  ∀ ds : List Distance, (∀ x ∈ ds, x.toNat ≤ 64) → ds.length < 2 ^ 32 →
    (ds.foldl Acc.addSample Acc.empty).count.toNat = ds.length ∧
    (ds.foldl Acc.addSample Acc.empty).sum.toNat = (ds.map BitVec.toNat).sum ∧
    (ds ≠ [] → (ds.foldl Acc.addSample Acc.empty).min ∈ ds ∧ (ds.foldl Acc.addSample Acc.empty).max ∈ ds ∧
      ∀ x ∈ ds, (ds.foldl Acc.addSample Acc.empty).min.toNat ≤ x.toNat ∧
        x.toNat ≤ (ds.foldl Acc.addSample Acc.empty).max.toNat) ∧
    (ds = [] → (ds.foldl Acc.addSample Acc.empty).min = 127 ∧ (ds.foldl Acc.addSample Acc.empty).max = 0) ∧
    ∀ ds' : List Distance, List.Perm ds ds' →
      ds'.foldl Acc.addSample Acc.empty = ds.foldl Acc.addSample Acc.empty

/-- The final-round distance of two encryptions is the distance of their ciphertexts (R272). -/
def Obligations.FinalRoundDistanceIsCiphertextDistance : Prop :=
  ∀ key pt key' pt' : Block,
    hd (desTrace key pt 15) (desTrace key' pt' 15) = hd (desEncrypt key pt) (desEncrypt key' pt')

/-! ## Errors -/

/-- R300: a command that raises an error completes at once, with its code, and writes BUSY, DONE and ERR alone: so for each cause
of 60_exceptions.md rules R303 to R308, and whatever engine step completes with an error. -/
def Obligations.AnErrorWritesOnlyTheStatusFields : Prop :=
  ∀ s : State, s.stepPos ≠ .idle →
    (∀ t : State, engineStep s = .next t → t.stepPos = .idle → t.err ≠ .none →
      t = { s with busy := false, done := true, err := t.err, stepPos := .idle }) ∧
    (∀ r, decode s.lcmd = .error r → engineStep s = .next (finished .illegalCmd s)) ∧
    (∀ tgt pos, decode s.lcmd = .ok (.encrypt true tgt pos) → s.stepPos = .first → ¬(1 ≤ pos ∧ pos ≤ 64) →
      engineStep s = .next (finished .outOfRange s)) ∧
    (∀ wa wb, decode s.lcmd = .ok (.xor wa wb) ∨ decode s.lcmd = .ok (.hdist wa wb) → wa ≠ wb →
      engineStep s = .next (finished .lengthMismatch s)) ∧
    (decode s.lcmd = .ok .anBase → s.tvalid ≠ 0xFFFF → engineStep s = .next (finished .noTrace s)) ∧
    (decode s.lcmd = .ok .anAcc → s.baseValid = false → engineStep s = .next (finished .noBaseline s)) ∧
    (decode s.lcmd = .ok .anAcc → s.baseValid = true →
      (∃ r : Round, s.tvalid.getLsbD r.val = true ∧ s.acc[r].count = 0xFFFFFFFF) →
      engineStep s = .next (finished .accOverflow s))

/-- Each error code has exactly its cause, checked in the order of R302: the command's own checks of R301. -/
def Obligations.ErrorsHaveExactlyTheirCauses : Prop :=
  ∀ (i : Instr) (s t : State), s.stepPos = .first → exec i s = .next t → t.stepPos = .idle →
    t.err ≠ .illegalCmd ∧
    (t.err = .outOfRange ↔ ∃ tgt pos, i = .encrypt true tgt pos ∧ ¬(1 ≤ pos ∧ pos ≤ 64)) ∧
    (t.err = .lengthMismatch ↔ ∃ wa wb, wa ≠ wb ∧ (i = .xor wa wb ∨ i = .hdist wa wb)) ∧
    (t.err = .noBaseline ↔ i = .anAcc ∧ s.baseValid = false) ∧
    (t.err = .noTrace ↔ i = .anBase ∧ s.tvalid ≠ 0xFFFF) ∧
    (t.err = .accOverflow ↔ i = .anAcc ∧ s.baseValid = true ∧
      ∃ r : Round, s.tvalid.getLsbD r.val = true ∧ s.acc[r].count = 0xFFFFFFFF)

/-! ## Whole-machine rules -/

/-- A command writes no word of the window outside its write set, STATUS aside (R59). -/
def Obligations.CommandsWriteOnlyTheirWriteSet : Prop :=
  ∀ (i : Instr) (s t : State), exec i s = .next t →
    ∀ g : Reg, g ≠ .status → inWriteSet i s g = false → readReg g t = readReg g s

/-- No command writes the host's registers, the latched word, BOVR, the base address or the bus's own fields (R36, R42 to R44,
R59). -/
def Obligations.CommandsLeaveTheHostsRegistersAlone : Prop :=
  ∀ (i : Instr) (s t : State), exec i s = .next t →
    t.key = s.key ∧ t.pt = s.pt ∧ t.opa = s.opa ∧ t.opb = s.opb ∧ t.lcmd = s.lcmd ∧ t.bovr = s.bovr ∧
    t.baseAddr = s.baseAddr ∧ t.agenda = s.agenda ∧ t.responses = s.responses ∧ t.draws = s.draws

/-- Only a step of ENCRYPT that passes its checks, or a reset, moves the controller or changes the trace, its valid bits, CT, WKEY or
WPT (R38, R40, R47, R48, R50, R250, R253). -/
def Obligations.OnlyEncryptMovesTheController : Prop :=
  ∀ s t : State, step s = .next t → eventOf s ≠ .reset →
    (¬ ∃ pen tgt pos, decode s.lcmd = .ok (.encrypt pen tgt pos) ∧ eventOf s = .engine ∧ s.stepPos ≠ .idle ∧
      (s.stepPos = .first → positionOk pen pos = true)) →
    t.fstate = s.fstate ∧ t.trace = s.trace ∧ t.tvalid = s.tvalid ∧ t.ct = s.ct ∧ t.wkey = s.wkey ∧ t.wpt = s.wpt

/-- While a command runs, no event but a reset changes its operands or the latched word (R78, R86, R89). -/
def Obligations.OperandsHoldWhileBusy : Prop :=
  ∀ s t : State, s.busy = true → eventOf s ≠ .reset → step s = .next t →
    t.key = s.key ∧ t.pt = s.pt ∧ t.opa = s.opa ∧ t.opb = s.opb ∧ t.lcmd = s.lcmd

/-- R36: BOVR is set by a write to any other register than STATUS while BUSY = 1, which is otherwise ignored; it stays 1 until
a STATUS write with bit 3 = 1 or a reset; no command reads or clears it. A STATUS write acts through bit 3 alone: with bit 3 = 0 it
changes nothing, whether or not the engine is busy (R32, R81). -/
def Obligations.OverrunFlagIsSticky : Prop :=
  (∀ (s : State) (g : Reg) (v : Word), s.busy = true → g ≠ .status →
    memWrite 4 g.offset v s = .ok { s with bovr := true }) ∧
  (∀ (s : State) (v : Word), v.getLsbD 3 = true → memWrite 4 0x004 v s = .ok { s with bovr := false }) ∧
  (∀ (s : State) (v : Word), v.getLsbD 3 = false → memWrite 4 0x004 v s = .ok s) ∧
  (∀ s t : State, s.bovr = true → step s = .next t → eventOf s ≠ .reset →
    (∀ v : Word, eventOf s = .write 4 (s.baseAddr + 0x004) v → v.getLsbD 3 = false) → t.bovr = true) ∧
  (∀ s : State, (State.resetFrom s.draws s.baseAddr s.agenda s.responses).bovr = false) ∧
  (∀ (i : Instr) (s t : State) (b : Bool), exec i s = .next t → exec i { s with bovr := b } = .next { t with bovr := b })

/-- ERR changes at a completion or a reset alone (R37). -/
def Obligations.ErrChangesOnlyAtCompletion : Prop :=
  ∀ s t : State, step s = .next t → t.err ≠ s.err →
    eventOf s = .reset ∨ (eventOf s = .engine ∧ s.stepPos ≠ .idle ∧ t.stepPos = .idle ∧ t.busy = false ∧ t.done = true)

/-! ## Invariants -/

/-- Every step keeps the control state legal: BUSY and STEP agree, DONE is 0 while busy, FSTATE and TVALID are those of the step
reached, a valid baseline came from a whole trace, and the window stays aligned. -/
def Obligations.EveryStepKeepsControlInv : Prop :=
  ∀ s t : State, ControlInv s → step s = .next t → ControlInv t

/-- Every step keeps the cipher registers true to the cipher: after FINAL the trace and CT are those of WKEY and WPT, and during an
encryption L, R, SK and the rounds done so far are. -/
def Obligations.EveryStepKeepsCipherInv : Prop :=
  ∀ s t : State, ControlInv s → CipherInv s → step s = .next t → CipherInv t

/-- Every step keeps the accumulators aggregates, so SUM never wraps and MIN = 127 means no sample; a valid HD_LAST stays
at most 64. -/
def Obligations.EveryStepKeepsAnalyzerInv : Prop :=
  ∀ s t : State, AnalyzerInv s → step s = .next t → AnalyzerInv t

/-- The three invariants hold right after reset. -/
def Obligations.ResetMeetsTheInvariants : Prop :=
  ControlInv State.reset ∧ CipherInv State.reset ∧ AnalyzerInv State.reset

/-! ## Register window -/

/-- The map gives every word the offset R82 lists, its own, aligned and below 0x500, and an aligned offset its word; the HI word of
a register lies at the lower offset (R75). -/
def Obligations.RegisterMapIsOneToOne : Prop :=
  (∀ g g' : Reg, g.offset = g'.offset → g = g') ∧
  (∀ g : Reg, g.offset % 4 = 0 ∧ g.offset < 0x500 ∧ accessed 4 g.offset = some g) ∧
  (Reg.id.offset = 0x000 ∧ Reg.status.offset = 0x004 ∧ Reg.cmd.offset = 0x008 ∧ Reg.tvalid.offset = 0x00C ∧
    Reg.hdvalid.offset = 0x010) ∧
  (pairAt .key 0x020 ∧ pairAt .pt 0x028 ∧ pairAt .opa 0x030 ∧ pairAt .opb 0x038 ∧ pairAt .res 0x040 ∧ pairAt .ct 0x048 ∧
    pairAt .wkey 0x050 ∧ pairAt .wpt 0x058) ∧
  ∀ r : Round, pairAt (.sk r) (0x100 + 8 * r.val) ∧ pairAt (.trace r) (0x200 + 8 * r.val) ∧
    pairAt (.base r) (0x280 + 8 * r.val) ∧ (Reg.hdLast r).offset = 0x300 + 4 * r.val ∧
    pairAt (.sum r) (0x400 + 16 * r.val) ∧ (Reg.count r).offset = 0x408 + 16 * r.val ∧
    (Reg.minmax r).offset = 0x40C + 16 * r.val

/-- The unmapped offsets are exactly those of R83, and every access there is a bus error. -/
def Obligations.UnmappedOffsetsAreBusErrors : Prop :=
  ∀ (off : Nat) (s : State) (v : Word), off % 4 = 0 → off < 0x1000 →
    ((∃ g : Reg, g.offset = off) ↔
      ¬(0x014 ≤ off ∧ off ≤ 0x01C ∨ 0x060 ≤ off ∧ off ≤ 0x0FC ∨ 0x180 ≤ off ∧ off ≤ 0x1FC ∨
        0x340 ≤ off ∧ off ≤ 0x3FC ∨ 0x500 ≤ off ∧ off ≤ 0xFFC)) ∧
    ((¬ ∃ g : Reg, g.offset = off) →
      memRead 4 off s = .error (.busError 4 off) ∧ memWrite 4 off v s = .error (.busError 4 off))

/-- R74: a bus error changes no engine state and returns no data; the host sees it, and the engine goes on. A read or write that
is not a word, not aligned or not mapped is one (R72, R73). -/
def Obligations.BusErrorChangesNoEngineState : Prop :=
  ∀ (s : State) (width off : Nat) (v : Word), off < 0x1000 →
    (width ≠ 4 ∨ off % 4 ≠ 0 ∨ ¬ ∃ g : Reg, g.offset = off) →
    hostRead width (s.baseAddr + off) s = { s with responses := .busError :: s.responses } ∧
    hostWrite width (s.baseAddr + off) v s = { s with responses := .busError :: s.responses }

/-- While the engine is idle a read returns the word the register holds and changes nothing. At the offset R82 gives it, each
register's word has its bits where 10_state.md puts them: HI is bits 63:32 and LO bits 31:0 (R75), TRACE_L and TRACE_R, BASE_L and
BASE_R are the halves of an entry (R50, R51), TVALID and HDVALID stand in bits 15:0 (R40, R41), a subkey's upper bits in bits
15:0 of SK_HI (R49), HD_LAST in bits 6:0 (R52), MIN in bits 6:0 and MAX in bits 22:16 (R53), and every other bit reads 0. STATUS
holds its fields where R32 puts them, with every other bit 0 and legal codes, and CMD reads as 0 (R32, R38, R39, R79, R80, R301). -/
def Obligations.IdleReadReturnsTheRegister : Prop :=
  ∀ s : State, s.busy = false →
    (∀ g : Reg, memRead 4 g.offset s = .ok (readReg g s, s)) ∧
    readReg .cmd s = 0 ∧ readReg .id s = 0x44455331 ∧
    (readReg .status s).getLsbD 0 = s.busy ∧ (readReg .status s).getLsbD 1 = s.done ∧
    (readReg .status s).getLsbD 2 = s.baseValid ∧ (readReg .status s).getLsbD 3 = s.bovr ∧
    (readReg .status s).extractLsb' 4 4 = s.err.code ∧ (readReg .status s).extractLsb' 8 5 = s.fstate.code ∧
    (∀ k, 13 ≤ k → (readReg .status s).getLsbD k = false) ∧ s.err.code.toNat ≤ 6 ∧ s.fstate.code.toNat ≤ 17 ∧
    (readsAs s 0x00C fun k => decide (k < 16) && s.tvalid.getLsbD k) ∧
    (readsAs s 0x010 fun k => decide (k < 16) && s.hdvalid.getLsbD k) ∧
    (readsAsPair s 0x020 s.key.getLsbD ∧ readsAsPair s 0x028 s.pt.getLsbD ∧ readsAsPair s 0x030 s.opa.getLsbD ∧
      readsAsPair s 0x038 s.opb.getLsbD ∧ readsAsPair s 0x040 s.res.getLsbD ∧ readsAsPair s 0x048 s.ct.getLsbD ∧
      readsAsPair s 0x050 s.wkey.getLsbD ∧ readsAsPair s 0x058 s.wpt.getLsbD) ∧
    ∀ r : Round,
      readsAsPair s (0x100 + 8 * r.val) (fun k => decide (k < 48) && s.sk[r].getLsbD k) ∧
      readsAsPair s (0x200 + 8 * r.val) s.trace[r].getLsbD ∧ readsAsPair s (0x280 + 8 * r.val) s.base[r].getLsbD ∧
      (readsAs s (0x300 + 4 * r.val) fun k => decide (k < 7) && s.hdLast[r].getLsbD k) ∧
      readsAsPair s (0x400 + 16 * r.val) s.acc[r].sum.getLsbD ∧ readsAs s (0x408 + 16 * r.val) s.acc[r].count.getLsbD ∧
      readsAs s (0x40C + 16 * r.val) fun k =>
        if k < 7 then s.acc[r].min.getLsbD k else decide (16 ≤ k ∧ k < 23) && s.acc[r].max.getLsbD (k - 16)

/-- A read of STATUS while BUSY = 1: BUSY, DONE, BOVR and ERR are exact; FSTATE is some legal value, and its own unless an
ENCRYPT runs; BASE_VALID is its own unless AN_CLEAR or AN_BASE runs; bits 31:13 are 0 (R32); no register changes (R342). That a
latched word which decodes to no command counts as no ENCRYPT, AN_CLEAR or AN_BASE running, so that both fields are exact, is the
model's choice (log entry 9, DEDUCED, unsafe). -/
def Obligations.StatusReadWhileBusy : Prop :=
  ∀ (s s' : State) (v : Word), s.busy = true → readWord .status s = (v, s') →
    v.getLsbD 0 = true ∧ v.getLsbD 1 = s.done ∧ v.getLsbD 3 = s.bovr ∧ v.extractLsb' 4 4 = s.err.code ∧
    (v.extractLsb' 8 5).toNat ≤ 17 ∧ (∀ k, 13 ≤ k → v.getLsbD k = false) ∧
    ((¬ ∃ pen tgt pos, decode s.lcmd = .ok (.encrypt pen tgt pos)) → v.extractLsb' 8 5 = s.fstate.code) ∧
    (decode s.lcmd ≠ .ok .anClear → decode s.lcmd ≠ .ok .anBase → v.getLsbD 2 = s.baseValid) ∧
    s' = { s with draws := s'.draws }

/-- A read while BUSY = 1 of a word outside the running command's write set is exact; one inside it is the machine's next free
value, whatever the register holds (R59, R80, R342); CMD reads 0 (R39). Two readings of the rules are the model's choice (log entry
9, DEDUCED, unsafe): AN_ACC's write set holds SUM, COUNT and MINMAX of the rounds with data alone, so those of an excluded round
read exactly, and a latched word that decodes to no command has no write set, so every word reads exactly while it runs. The free
value is drawn as log entry 1 says. -/
def Obligations.ReadWhileBusy : Prop :=
  ∀ s : State, s.busy = true →
    memRead 4 Reg.cmd.offset s = .ok (0, s) ∧
    ∀ g : Reg, g ≠ .status → g ≠ .cmd →
      (∀ e, decode s.lcmd = .error e → memRead 4 g.offset s = .ok (readReg g s, s)) ∧
      ∀ i : Instr, decode s.lcmd = .ok i →
        (inWriteSet i s g = false → memRead 4 g.offset s = .ok (readReg g s, s)) ∧
        (inWriteSet i s g = true →
          memRead 4 g.offset s = .ok ((Config.freeValue s.draws).setWidth 32, { s with draws := s.draws + 1 }))

/-- A write to a word of KEY, PT, OPA or OPB while the engine is idle is what the word then reads as, and every other word of the
window reads as before; it reaches bits 63:32 of the register at the HI word and bits 31:0 at the LO word, and keeps the other half
and the other three registers (R75, R77, R78, R81). The host's write at the word's bus address does so, and its read there is then
answered with the value (R70, R80, R81). -/
def Obligations.WriteThenReadGivesTheWord : Prop :=
  (∀ (s : State) (g : Reg) (v : Word), s.busy = false → (∃ h, g = .key h ∨ g = .pt h ∨ g = .opa h ∨ g = .opb h) →
    ∃ t : State, memWrite 4 g.offset v s = .ok t ∧ readReg g t = v ∧ (∀ g' : Reg, g' ≠ g → readReg g' t = readReg g' s) ∧
      t = { s with key := t.key, pt := t.pt, opa := t.opa, opb := t.opb } ∧
      hostWrite 4 (s.baseAddr + g.offset) v s = { t with responses := .done :: s.responses } ∧
      hostRead 4 (s.baseAddr + g.offset) t = { t with responses := .data v :: s.responses }) ∧
  ∀ (s : State) (h : Half) (v : Word), s.busy = false →
    (∃ x, memWrite 4 (Reg.key h).offset v s = .ok { s with key := x } ∧ halfReplaced h s.key v x) ∧
    (∃ x, memWrite 4 (Reg.pt h).offset v s = .ok { s with pt := x } ∧ halfReplaced h s.pt v x) ∧
    (∃ x, memWrite 4 (Reg.opa h).offset v s = .ok { s with opa := x } ∧ halfReplaced h s.opa v x) ∧
    (∃ x, memWrite 4 (Reg.opb h).offset v s = .ok { s with opb := x } ∧ halfReplaced h s.opb v x)

/-- R84: a write to a read-only register is ignored while idle, with no bus error and no flag, and sets BOVR while busy. -/
def Obligations.ReadOnlyRegistersIgnoreWrites : Prop :=
  ∀ (s : State) (g : Reg) (v : Word), g ≠ .status → g ≠ .cmd → (∀ h, g ≠ .key h ∧ g ≠ .pt h ∧ g ≠ .opa h ∧ g ≠ .opb h) →
    (s.busy = false → memWrite 4 g.offset v s = .ok s) ∧
    (s.busy = true → memWrite 4 g.offset v s = .ok { s with bovr := true })

/-- A step whose event is a host's read or write is that access, made by the state whose agenda has lost the event (R345). A word
access at BASE_ADDR plus a word's offset reaches that word: a read is answered with MemRead's word, and a write leaves MemWrite's state
and is answered done (R70, R80, R81). A read of any width and address changes what the host has seen and the free values drawn, and
nothing else (R79). The agenda, the answers and the free values are the model's own (log entries 1, 3 and 5). -/
def Obligations.HostAccessesReachTheirWord : Prop :=
  (∀ (s : State) (width addr : Nat) (rest : List Event), s.agenda = .read width addr :: rest →
    step s = .next (hostRead width addr { s with agenda := rest })) ∧
  (∀ (s : State) (width addr : Nat) (v : Word) (rest : List Event), s.agenda = .write width addr v :: rest →
    step s = .next (hostWrite width addr v { s with agenda := rest })) ∧
  (∀ (s : State) (g : Reg), ∃ (v : Word) (t : State), memRead 4 g.offset s = .ok (v, t) ∧
    hostRead 4 (s.baseAddr + g.offset) s = { t with responses := .data v :: t.responses }) ∧
  (∀ (s : State) (g : Reg) (v : Word), ∃ t : State, memWrite 4 g.offset v s = .ok t ∧
    hostWrite 4 (s.baseAddr + g.offset) v s = { t with responses := .done :: t.responses }) ∧
  ∀ (s : State) (width addr : Nat),
    ∃ (a : Response) (n : Nat), hostRead width addr s = { s with responses := a :: s.responses, draws := n }

/-! ## Reset -/

/-- A reset, at any point of a run, leaves the control state of R56 and no latched command, so the command it aborted takes no
further step (R330 to R332). -/
def Obligations.ResetGivesTheControlStateOfR56 : Prop :=
  ∀ s t : State, eventOf s = .reset → step s = .next t →
    t.busy = false ∧ t.done = false ∧ t.baseValid = false ∧ t.bovr = false ∧ t.err = .none ∧ t.fstate = .initial ∧
    t.tvalid = 0 ∧ t.hdvalid = 0 ∧ t.stepPos = .idle ∧
    (∀ r : Round, t.acc[r].sum = 0 ∧ t.acc[r].count = 0 ∧ t.acc[r].min = 127 ∧ t.acc[r].max = 0) ∧
    readReg .id t = 0x44455331 ∧ engineStep t = .next t

/-! ## Host boundary -/

/-- hexToBits undoes bitsToHex at every width that is a multiple of 4, and not at width 6 (40_bitvector.md rule R149). -/
def Obligations.HexTextRoundTrip : Prop :=
  (∀ (w : Nat) (b : BitVec w), 0 < w → w % 4 = 0 → hexToBits (bitsToHex b) w = .ok b) ∧
  bitsToHex 0b101101#6 = ['B', '4'] ∧ hexToBits ['B', '4'] 6 = .ok 0b110100#6
end

