-- ==== Sys2Proof/Laws/State.lean ====
section
/-! SUPPORT. One lemma for each field and each shared update of the state, so that no later proof unfolds a record
update. -/

namespace Sys2Proof.Machine

@[simp] theorem succeed_eq (s : State) : succeed s = complete .none s := rfl
@[simp] theorem raiseError_eq (e : ErrCode) (s : State) : raiseError e s = complete e s := rfl
@[simp] theorem putResult_eq (v : Block) (s : State) : putResult v s = complete .none { s with res := v } := rfl
@[simp] theorem finished_eq (e : ErrCode) (s : State) : Safety.finished e s = complete e s := rfl

@[simp] theorem complete_busy (e : ErrCode) (s : State) : (complete e s).busy = false := rfl
@[simp] theorem complete_done (e : ErrCode) (s : State) : (complete e s).done = true := rfl
@[simp] theorem complete_baseValid (e : ErrCode) (s : State) : (complete e s).baseValid = s.baseValid := rfl
@[simp] theorem complete_bovr (e : ErrCode) (s : State) : (complete e s).bovr = s.bovr := rfl
@[simp] theorem complete_err (e : ErrCode) (s : State) : (complete e s).err = e := rfl
@[simp] theorem complete_fstate (e : ErrCode) (s : State) : (complete e s).fstate = s.fstate := rfl
@[simp] theorem complete_tvalid (e : ErrCode) (s : State) : (complete e s).tvalid = s.tvalid := rfl
@[simp] theorem complete_hdvalid (e : ErrCode) (s : State) : (complete e s).hdvalid = s.hdvalid := rfl
@[simp] theorem complete_key (e : ErrCode) (s : State) : (complete e s).key = s.key := rfl
@[simp] theorem complete_pt (e : ErrCode) (s : State) : (complete e s).pt = s.pt := rfl
@[simp] theorem complete_opa (e : ErrCode) (s : State) : (complete e s).opa = s.opa := rfl
@[simp] theorem complete_opb (e : ErrCode) (s : State) : (complete e s).opb = s.opb := rfl
@[simp] theorem complete_res (e : ErrCode) (s : State) : (complete e s).res = s.res := rfl
@[simp] theorem complete_ct (e : ErrCode) (s : State) : (complete e s).ct = s.ct := rfl
@[simp] theorem complete_wkey (e : ErrCode) (s : State) : (complete e s).wkey = s.wkey := rfl
@[simp] theorem complete_wpt (e : ErrCode) (s : State) : (complete e s).wpt = s.wpt := rfl
@[simp] theorem complete_sk (e : ErrCode) (s : State) : (complete e s).sk = s.sk := rfl
@[simp] theorem complete_trace (e : ErrCode) (s : State) : (complete e s).trace = s.trace := rfl
@[simp] theorem complete_base (e : ErrCode) (s : State) : (complete e s).base = s.base := rfl
@[simp] theorem complete_hdLast (e : ErrCode) (s : State) : (complete e s).hdLast = s.hdLast := rfl
@[simp] theorem complete_acc (e : ErrCode) (s : State) : (complete e s).acc = s.acc := rfl
@[simp] theorem complete_l (e : ErrCode) (s : State) : (complete e s).l = s.l := rfl
@[simp] theorem complete_r (e : ErrCode) (s : State) : (complete e s).r = s.r := rfl
@[simp] theorem complete_c (e : ErrCode) (s : State) : (complete e s).c = s.c := rfl
@[simp] theorem complete_d (e : ErrCode) (s : State) : (complete e s).d = s.d := rfl
@[simp] theorem complete_lcmd (e : ErrCode) (s : State) : (complete e s).lcmd = s.lcmd := rfl
@[simp] theorem complete_stepPos (e : ErrCode) (s : State) : (complete e s).stepPos = .idle := rfl
@[simp] theorem complete_baseAddr (e : ErrCode) (s : State) : (complete e s).baseAddr = s.baseAddr := rfl
@[simp] theorem complete_agenda (e : ErrCode) (s : State) : (complete e s).agenda = s.agenda := rfl
@[simp] theorem complete_responses (e : ErrCode) (s : State) : (complete e s).responses = s.responses := rfl
@[simp] theorem complete_draws (e : ErrCode) (s : State) : (complete e s).draws = s.draws := rfl

@[simp] theorem accept_busy (w : Word) (s : State) : (accept w s).busy = true := rfl
@[simp] theorem accept_done (w : Word) (s : State) : (accept w s).done = false := rfl
@[simp] theorem accept_baseValid (w : Word) (s : State) : (accept w s).baseValid = s.baseValid := rfl
@[simp] theorem accept_bovr (w : Word) (s : State) : (accept w s).bovr = s.bovr := rfl
@[simp] theorem accept_err (w : Word) (s : State) : (accept w s).err = s.err := rfl
@[simp] theorem accept_fstate (w : Word) (s : State) : (accept w s).fstate = s.fstate := rfl
@[simp] theorem accept_tvalid (w : Word) (s : State) : (accept w s).tvalid = s.tvalid := rfl
@[simp] theorem accept_hdvalid (w : Word) (s : State) : (accept w s).hdvalid = s.hdvalid := rfl
@[simp] theorem accept_key (w : Word) (s : State) : (accept w s).key = s.key := rfl
@[simp] theorem accept_pt (w : Word) (s : State) : (accept w s).pt = s.pt := rfl
@[simp] theorem accept_opa (w : Word) (s : State) : (accept w s).opa = s.opa := rfl
@[simp] theorem accept_opb (w : Word) (s : State) : (accept w s).opb = s.opb := rfl
@[simp] theorem accept_res (w : Word) (s : State) : (accept w s).res = s.res := rfl
@[simp] theorem accept_ct (w : Word) (s : State) : (accept w s).ct = s.ct := rfl
@[simp] theorem accept_wkey (w : Word) (s : State) : (accept w s).wkey = s.wkey := rfl
@[simp] theorem accept_wpt (w : Word) (s : State) : (accept w s).wpt = s.wpt := rfl
@[simp] theorem accept_sk (w : Word) (s : State) : (accept w s).sk = s.sk := rfl
@[simp] theorem accept_trace (w : Word) (s : State) : (accept w s).trace = s.trace := rfl
@[simp] theorem accept_base (w : Word) (s : State) : (accept w s).base = s.base := rfl
@[simp] theorem accept_hdLast (w : Word) (s : State) : (accept w s).hdLast = s.hdLast := rfl
@[simp] theorem accept_acc (w : Word) (s : State) : (accept w s).acc = s.acc := rfl
@[simp] theorem accept_l (w : Word) (s : State) : (accept w s).l = s.l := rfl
@[simp] theorem accept_r (w : Word) (s : State) : (accept w s).r = s.r := rfl
@[simp] theorem accept_c (w : Word) (s : State) : (accept w s).c = s.c := rfl
@[simp] theorem accept_d (w : Word) (s : State) : (accept w s).d = s.d := rfl
@[simp] theorem accept_lcmd (w : Word) (s : State) : (accept w s).lcmd = w := rfl
@[simp] theorem accept_stepPos (w : Word) (s : State) : (accept w s).stepPos = .first := rfl
@[simp] theorem accept_baseAddr (w : Word) (s : State) : (accept w s).baseAddr = s.baseAddr := rfl
@[simp] theorem accept_agenda (w : Word) (s : State) : (accept w s).agenda = s.agenda := rfl
@[simp] theorem accept_responses (w : Word) (s : State) : (accept w s).responses = s.responses := rfl
@[simp] theorem accept_draws (w : Word) (s : State) : (accept w s).draws = s.draws := rfl

@[simp] theorem loadSchedule_busy (k : Block) (s : State) : (loadSchedule k s).busy = s.busy := rfl
@[simp] theorem loadSchedule_done (k : Block) (s : State) : (loadSchedule k s).done = s.done := rfl
@[simp] theorem loadSchedule_baseValid (k : Block) (s : State) : (loadSchedule k s).baseValid = s.baseValid := rfl
@[simp] theorem loadSchedule_bovr (k : Block) (s : State) : (loadSchedule k s).bovr = s.bovr := rfl
@[simp] theorem loadSchedule_err (k : Block) (s : State) : (loadSchedule k s).err = s.err := rfl
@[simp] theorem loadSchedule_fstate (k : Block) (s : State) : (loadSchedule k s).fstate = s.fstate := rfl
@[simp] theorem loadSchedule_tvalid (k : Block) (s : State) : (loadSchedule k s).tvalid = s.tvalid := rfl
@[simp] theorem loadSchedule_hdvalid (k : Block) (s : State) : (loadSchedule k s).hdvalid = s.hdvalid := rfl
@[simp] theorem loadSchedule_key (k : Block) (s : State) : (loadSchedule k s).key = s.key := rfl
@[simp] theorem loadSchedule_pt (k : Block) (s : State) : (loadSchedule k s).pt = s.pt := rfl
@[simp] theorem loadSchedule_opa (k : Block) (s : State) : (loadSchedule k s).opa = s.opa := rfl
@[simp] theorem loadSchedule_opb (k : Block) (s : State) : (loadSchedule k s).opb = s.opb := rfl
@[simp] theorem loadSchedule_res (k : Block) (s : State) : (loadSchedule k s).res = s.res := rfl
@[simp] theorem loadSchedule_ct (k : Block) (s : State) : (loadSchedule k s).ct = s.ct := rfl
@[simp] theorem loadSchedule_wkey (k : Block) (s : State) : (loadSchedule k s).wkey = s.wkey := rfl
@[simp] theorem loadSchedule_wpt (k : Block) (s : State) : (loadSchedule k s).wpt = s.wpt := rfl
@[simp] theorem loadSchedule_sk (k : Block) (s : State) : (loadSchedule k s).sk = schedule k := rfl
@[simp] theorem loadSchedule_trace (k : Block) (s : State) : (loadSchedule k s).trace = s.trace := rfl
@[simp] theorem loadSchedule_base (k : Block) (s : State) : (loadSchedule k s).base = s.base := rfl
@[simp] theorem loadSchedule_hdLast (k : Block) (s : State) : (loadSchedule k s).hdLast = s.hdLast := rfl
@[simp] theorem loadSchedule_acc (k : Block) (s : State) : (loadSchedule k s).acc = s.acc := rfl
@[simp] theorem loadSchedule_l (k : Block) (s : State) : (loadSchedule k s).l = s.l := rfl
@[simp] theorem loadSchedule_r (k : Block) (s : State) : (loadSchedule k s).r = s.r := rfl
@[simp] theorem loadSchedule_c (k : Block) (s : State) : (loadSchedule k s).c = (keyHalves k 16).1 := rfl
@[simp] theorem loadSchedule_d (k : Block) (s : State) : (loadSchedule k s).d = (keyHalves k 16).2 := rfl
@[simp] theorem loadSchedule_lcmd (k : Block) (s : State) : (loadSchedule k s).lcmd = s.lcmd := rfl
@[simp] theorem loadSchedule_stepPos (k : Block) (s : State) : (loadSchedule k s).stepPos = s.stepPos := rfl
@[simp] theorem loadSchedule_baseAddr (k : Block) (s : State) : (loadSchedule k s).baseAddr = s.baseAddr := rfl
@[simp] theorem loadSchedule_agenda (k : Block) (s : State) : (loadSchedule k s).agenda = s.agenda := rfl
@[simp] theorem loadSchedule_responses (k : Block) (s : State) : (loadSchedule k s).responses = s.responses := rfl
@[simp] theorem loadSchedule_draws (k : Block) (s : State) : (loadSchedule k s).draws = s.draws := rfl

@[simp] theorem encryptInitial_busy (pen : Bool) (tgt : Target) (pos : Nat) (s : State) :
    (encryptInitial pen tgt pos s).busy = s.busy := rfl
@[simp] theorem encryptInitial_done (pen : Bool) (tgt : Target) (pos : Nat) (s : State) :
    (encryptInitial pen tgt pos s).done = s.done := rfl
@[simp] theorem encryptInitial_baseValid (pen : Bool) (tgt : Target) (pos : Nat) (s : State) :
    (encryptInitial pen tgt pos s).baseValid = s.baseValid := rfl
@[simp] theorem encryptInitial_bovr (pen : Bool) (tgt : Target) (pos : Nat) (s : State) :
    (encryptInitial pen tgt pos s).bovr = s.bovr := rfl
@[simp] theorem encryptInitial_err (pen : Bool) (tgt : Target) (pos : Nat) (s : State) :
    (encryptInitial pen tgt pos s).err = s.err := rfl
@[simp] theorem encryptInitial_fstate (pen : Bool) (tgt : Target) (pos : Nat) (s : State) :
    (encryptInitial pen tgt pos s).fstate = .initial := rfl
@[simp] theorem encryptInitial_tvalid (pen : Bool) (tgt : Target) (pos : Nat) (s : State) :
    (encryptInitial pen tgt pos s).tvalid = 0 := rfl
@[simp] theorem encryptInitial_hdvalid (pen : Bool) (tgt : Target) (pos : Nat) (s : State) :
    (encryptInitial pen tgt pos s).hdvalid = s.hdvalid := rfl
@[simp] theorem encryptInitial_key (pen : Bool) (tgt : Target) (pos : Nat) (s : State) :
    (encryptInitial pen tgt pos s).key = s.key := rfl
@[simp] theorem encryptInitial_pt (pen : Bool) (tgt : Target) (pos : Nat) (s : State) :
    (encryptInitial pen tgt pos s).pt = s.pt := rfl
@[simp] theorem encryptInitial_opa (pen : Bool) (tgt : Target) (pos : Nat) (s : State) :
    (encryptInitial pen tgt pos s).opa = s.opa := rfl
@[simp] theorem encryptInitial_opb (pen : Bool) (tgt : Target) (pos : Nat) (s : State) :
    (encryptInitial pen tgt pos s).opb = s.opb := rfl
@[simp] theorem encryptInitial_res (pen : Bool) (tgt : Target) (pos : Nat) (s : State) :
    (encryptInitial pen tgt pos s).res = s.res := rfl
@[simp] theorem encryptInitial_ct (pen : Bool) (tgt : Target) (pos : Nat) (s : State) :
    (encryptInitial pen tgt pos s).ct = s.ct := rfl
@[simp] theorem encryptInitial_wkey (pen : Bool) (tgt : Target) (pos : Nat) (s : State) :
    (encryptInitial pen tgt pos s).wkey = workingKey pen tgt pos s.key := rfl
@[simp] theorem encryptInitial_wpt (pen : Bool) (tgt : Target) (pos : Nat) (s : State) :
    (encryptInitial pen tgt pos s).wpt = workingPt pen tgt pos s.pt := rfl
@[simp] theorem encryptInitial_sk (pen : Bool) (tgt : Target) (pos : Nat) (s : State) :
    (encryptInitial pen tgt pos s).sk = schedule (workingKey pen tgt pos s.key) := rfl
@[simp] theorem encryptInitial_trace (pen : Bool) (tgt : Target) (pos : Nat) (s : State) :
    (encryptInitial pen tgt pos s).trace = s.trace := rfl
@[simp] theorem encryptInitial_base (pen : Bool) (tgt : Target) (pos : Nat) (s : State) :
    (encryptInitial pen tgt pos s).base = s.base := rfl
@[simp] theorem encryptInitial_hdLast (pen : Bool) (tgt : Target) (pos : Nat) (s : State) :
    (encryptInitial pen tgt pos s).hdLast = s.hdLast := rfl
@[simp] theorem encryptInitial_acc (pen : Bool) (tgt : Target) (pos : Nat) (s : State) :
    (encryptInitial pen tgt pos s).acc = s.acc := rfl
@[simp] theorem encryptInitial_l (pen : Bool) (tgt : Target) (pos : Nat) (s : State) :
    (encryptInitial pen tgt pos s).l = (initialHalves (workingPt pen tgt pos s.pt)).1 := rfl
@[simp] theorem encryptInitial_r (pen : Bool) (tgt : Target) (pos : Nat) (s : State) :
    (encryptInitial pen tgt pos s).r = (initialHalves (workingPt pen tgt pos s.pt)).2 := rfl
@[simp] theorem encryptInitial_c (pen : Bool) (tgt : Target) (pos : Nat) (s : State) :
    (encryptInitial pen tgt pos s).c = (keyHalves (workingKey pen tgt pos s.key) 16).1 := rfl
@[simp] theorem encryptInitial_d (pen : Bool) (tgt : Target) (pos : Nat) (s : State) :
    (encryptInitial pen tgt pos s).d = (keyHalves (workingKey pen tgt pos s.key) 16).2 := rfl
@[simp] theorem encryptInitial_lcmd (pen : Bool) (tgt : Target) (pos : Nat) (s : State) :
    (encryptInitial pen tgt pos s).lcmd = s.lcmd := rfl
@[simp] theorem encryptInitial_stepPos (pen : Bool) (tgt : Target) (pos : Nat) (s : State) :
    (encryptInitial pen tgt pos s).stepPos = .round 0 := rfl
@[simp] theorem encryptInitial_baseAddr (pen : Bool) (tgt : Target) (pos : Nat) (s : State) :
    (encryptInitial pen tgt pos s).baseAddr = s.baseAddr := rfl
@[simp] theorem encryptInitial_agenda (pen : Bool) (tgt : Target) (pos : Nat) (s : State) :
    (encryptInitial pen tgt pos s).agenda = s.agenda := rfl
@[simp] theorem encryptInitial_responses (pen : Bool) (tgt : Target) (pos : Nat) (s : State) :
    (encryptInitial pen tgt pos s).responses = s.responses := rfl
@[simp] theorem encryptInitial_draws (pen : Bool) (tgt : Target) (pos : Nat) (s : State) :
    (encryptInitial pen tgt pos s).draws = s.draws := rfl

@[simp] theorem encryptRound_busy (i : Round) (s : State) : (encryptRound i s).busy = s.busy := rfl
@[simp] theorem encryptRound_done (i : Round) (s : State) : (encryptRound i s).done = s.done := rfl
@[simp] theorem encryptRound_baseValid (i : Round) (s : State) : (encryptRound i s).baseValid = s.baseValid := rfl
@[simp] theorem encryptRound_bovr (i : Round) (s : State) : (encryptRound i s).bovr = s.bovr := rfl
@[simp] theorem encryptRound_err (i : Round) (s : State) : (encryptRound i s).err = s.err := rfl
@[simp] theorem encryptRound_fstate (i : Round) (s : State) : (encryptRound i s).fstate = .round i := rfl
@[simp] theorem encryptRound_tvalid (i : Round) (s : State) : (encryptRound i s).tvalid = setRoundBit s.tvalid i := rfl
@[simp] theorem encryptRound_hdvalid (i : Round) (s : State) : (encryptRound i s).hdvalid = s.hdvalid := rfl
@[simp] theorem encryptRound_key (i : Round) (s : State) : (encryptRound i s).key = s.key := rfl
@[simp] theorem encryptRound_pt (i : Round) (s : State) : (encryptRound i s).pt = s.pt := rfl
@[simp] theorem encryptRound_opa (i : Round) (s : State) : (encryptRound i s).opa = s.opa := rfl
@[simp] theorem encryptRound_opb (i : Round) (s : State) : (encryptRound i s).opb = s.opb := rfl
@[simp] theorem encryptRound_res (i : Round) (s : State) : (encryptRound i s).res = s.res := rfl
@[simp] theorem encryptRound_ct (i : Round) (s : State) : (encryptRound i s).ct = s.ct := rfl
@[simp] theorem encryptRound_wkey (i : Round) (s : State) : (encryptRound i s).wkey = s.wkey := rfl
@[simp] theorem encryptRound_wpt (i : Round) (s : State) : (encryptRound i s).wpt = s.wpt := rfl
@[simp] theorem encryptRound_sk (i : Round) (s : State) : (encryptRound i s).sk = s.sk := rfl
@[simp] theorem encryptRound_trace (i : Round) (s : State) :
    (encryptRound i s).trace = s.trace.set i (s.r ++ (s.l ^^^ roundF s.r s.sk[i])) := rfl
@[simp] theorem encryptRound_base (i : Round) (s : State) : (encryptRound i s).base = s.base := rfl
@[simp] theorem encryptRound_hdLast (i : Round) (s : State) : (encryptRound i s).hdLast = s.hdLast := rfl
@[simp] theorem encryptRound_acc (i : Round) (s : State) : (encryptRound i s).acc = s.acc := rfl
@[simp] theorem encryptRound_l (i : Round) (s : State) : (encryptRound i s).l = s.r := rfl
@[simp] theorem encryptRound_r (i : Round) (s : State) : (encryptRound i s).r = s.l ^^^ roundF s.r s.sk[i] := rfl
@[simp] theorem encryptRound_c (i : Round) (s : State) : (encryptRound i s).c = s.c := rfl
@[simp] theorem encryptRound_d (i : Round) (s : State) : (encryptRound i s).d = s.d := rfl
@[simp] theorem encryptRound_lcmd (i : Round) (s : State) : (encryptRound i s).lcmd = s.lcmd := rfl
@[simp] theorem encryptRound_stepPos (i : Round) (s : State) : (encryptRound i s).stepPos = (StepPos.round i).next := rfl
@[simp] theorem encryptRound_baseAddr (i : Round) (s : State) : (encryptRound i s).baseAddr = s.baseAddr := rfl
@[simp] theorem encryptRound_agenda (i : Round) (s : State) : (encryptRound i s).agenda = s.agenda := rfl
@[simp] theorem encryptRound_responses (i : Round) (s : State) : (encryptRound i s).responses = s.responses := rfl
@[simp] theorem encryptRound_draws (i : Round) (s : State) : (encryptRound i s).draws = s.draws := rfl

@[simp] theorem encryptFinal_busy (s : State) : (encryptFinal s).busy = false := rfl
@[simp] theorem encryptFinal_done (s : State) : (encryptFinal s).done = true := rfl
@[simp] theorem encryptFinal_baseValid (s : State) : (encryptFinal s).baseValid = s.baseValid := rfl
@[simp] theorem encryptFinal_bovr (s : State) : (encryptFinal s).bovr = s.bovr := rfl
@[simp] theorem encryptFinal_err (s : State) : (encryptFinal s).err = .none := rfl
@[simp] theorem encryptFinal_fstate (s : State) : (encryptFinal s).fstate = .final := rfl
@[simp] theorem encryptFinal_tvalid (s : State) : (encryptFinal s).tvalid = s.tvalid := rfl
@[simp] theorem encryptFinal_hdvalid (s : State) : (encryptFinal s).hdvalid = s.hdvalid := rfl
@[simp] theorem encryptFinal_key (s : State) : (encryptFinal s).key = s.key := rfl
@[simp] theorem encryptFinal_pt (s : State) : (encryptFinal s).pt = s.pt := rfl
@[simp] theorem encryptFinal_opa (s : State) : (encryptFinal s).opa = s.opa := rfl
@[simp] theorem encryptFinal_opb (s : State) : (encryptFinal s).opb = s.opb := rfl
@[simp] theorem encryptFinal_res (s : State) : (encryptFinal s).res = s.res := rfl
@[simp] theorem encryptFinal_ct (s : State) : (encryptFinal s).ct = finalBlock (s.l, s.r) := rfl
@[simp] theorem encryptFinal_wkey (s : State) : (encryptFinal s).wkey = s.wkey := rfl
@[simp] theorem encryptFinal_wpt (s : State) : (encryptFinal s).wpt = s.wpt := rfl
@[simp] theorem encryptFinal_sk (s : State) : (encryptFinal s).sk = s.sk := rfl
@[simp] theorem encryptFinal_trace (s : State) : (encryptFinal s).trace = s.trace := rfl
@[simp] theorem encryptFinal_base (s : State) : (encryptFinal s).base = s.base := rfl
@[simp] theorem encryptFinal_hdLast (s : State) : (encryptFinal s).hdLast = s.hdLast := rfl
@[simp] theorem encryptFinal_acc (s : State) : (encryptFinal s).acc = s.acc := rfl
@[simp] theorem encryptFinal_l (s : State) : (encryptFinal s).l = s.l := rfl
@[simp] theorem encryptFinal_r (s : State) : (encryptFinal s).r = s.r := rfl
@[simp] theorem encryptFinal_c (s : State) : (encryptFinal s).c = s.c := rfl
@[simp] theorem encryptFinal_d (s : State) : (encryptFinal s).d = s.d := rfl
@[simp] theorem encryptFinal_lcmd (s : State) : (encryptFinal s).lcmd = s.lcmd := rfl
@[simp] theorem encryptFinal_stepPos (s : State) : (encryptFinal s).stepPos = .idle := rfl
@[simp] theorem encryptFinal_baseAddr (s : State) : (encryptFinal s).baseAddr = s.baseAddr := rfl
@[simp] theorem encryptFinal_agenda (s : State) : (encryptFinal s).agenda = s.agenda := rfl
@[simp] theorem encryptFinal_responses (s : State) : (encryptFinal s).responses = s.responses := rfl
@[simp] theorem encryptFinal_draws (s : State) : (encryptFinal s).draws = s.draws := rfl

@[simp] theorem accumulate_busy (s : State) : (accumulate s).busy = s.busy := rfl
@[simp] theorem accumulate_done (s : State) : (accumulate s).done = s.done := rfl
@[simp] theorem accumulate_baseValid (s : State) : (accumulate s).baseValid = s.baseValid := rfl
@[simp] theorem accumulate_bovr (s : State) : (accumulate s).bovr = s.bovr := rfl
@[simp] theorem accumulate_err (s : State) : (accumulate s).err = s.err := rfl
@[simp] theorem accumulate_fstate (s : State) : (accumulate s).fstate = s.fstate := rfl
@[simp] theorem accumulate_tvalid (s : State) : (accumulate s).tvalid = s.tvalid := rfl
@[simp] theorem accumulate_hdvalid (s : State) : (accumulate s).hdvalid = s.tvalid := rfl
@[simp] theorem accumulate_key (s : State) : (accumulate s).key = s.key := rfl
@[simp] theorem accumulate_pt (s : State) : (accumulate s).pt = s.pt := rfl
@[simp] theorem accumulate_opa (s : State) : (accumulate s).opa = s.opa := rfl
@[simp] theorem accumulate_opb (s : State) : (accumulate s).opb = s.opb := rfl
@[simp] theorem accumulate_res (s : State) : (accumulate s).res = s.res := rfl
@[simp] theorem accumulate_ct (s : State) : (accumulate s).ct = s.ct := rfl
@[simp] theorem accumulate_wkey (s : State) : (accumulate s).wkey = s.wkey := rfl
@[simp] theorem accumulate_wpt (s : State) : (accumulate s).wpt = s.wpt := rfl
@[simp] theorem accumulate_sk (s : State) : (accumulate s).sk = s.sk := rfl
@[simp] theorem accumulate_trace (s : State) : (accumulate s).trace = s.trace := rfl
@[simp] theorem accumulate_base (s : State) : (accumulate s).base = s.base := rfl
@[simp] theorem accumulate_l (s : State) : (accumulate s).l = s.l := rfl
@[simp] theorem accumulate_r (s : State) : (accumulate s).r = s.r := rfl
@[simp] theorem accumulate_c (s : State) : (accumulate s).c = s.c := rfl
@[simp] theorem accumulate_d (s : State) : (accumulate s).d = s.d := rfl
@[simp] theorem accumulate_lcmd (s : State) : (accumulate s).lcmd = s.lcmd := rfl
@[simp] theorem accumulate_stepPos (s : State) : (accumulate s).stepPos = s.stepPos := rfl
@[simp] theorem accumulate_baseAddr (s : State) : (accumulate s).baseAddr = s.baseAddr := rfl
@[simp] theorem accumulate_agenda (s : State) : (accumulate s).agenda = s.agenda := rfl
@[simp] theorem accumulate_responses (s : State) : (accumulate s).responses = s.responses := rfl
@[simp] theorem accumulate_draws (s : State) : (accumulate s).draws = s.draws := rfl

@[simp] theorem respond_busy (a : Response) (s : State) : (respond a s).busy = s.busy := rfl
@[simp] theorem respond_done (a : Response) (s : State) : (respond a s).done = s.done := rfl
@[simp] theorem respond_baseValid (a : Response) (s : State) : (respond a s).baseValid = s.baseValid := rfl
@[simp] theorem respond_bovr (a : Response) (s : State) : (respond a s).bovr = s.bovr := rfl
@[simp] theorem respond_err (a : Response) (s : State) : (respond a s).err = s.err := rfl
@[simp] theorem respond_fstate (a : Response) (s : State) : (respond a s).fstate = s.fstate := rfl
@[simp] theorem respond_tvalid (a : Response) (s : State) : (respond a s).tvalid = s.tvalid := rfl
@[simp] theorem respond_hdvalid (a : Response) (s : State) : (respond a s).hdvalid = s.hdvalid := rfl
@[simp] theorem respond_key (a : Response) (s : State) : (respond a s).key = s.key := rfl
@[simp] theorem respond_pt (a : Response) (s : State) : (respond a s).pt = s.pt := rfl
@[simp] theorem respond_opa (a : Response) (s : State) : (respond a s).opa = s.opa := rfl
@[simp] theorem respond_opb (a : Response) (s : State) : (respond a s).opb = s.opb := rfl
@[simp] theorem respond_res (a : Response) (s : State) : (respond a s).res = s.res := rfl
@[simp] theorem respond_ct (a : Response) (s : State) : (respond a s).ct = s.ct := rfl
@[simp] theorem respond_wkey (a : Response) (s : State) : (respond a s).wkey = s.wkey := rfl
@[simp] theorem respond_wpt (a : Response) (s : State) : (respond a s).wpt = s.wpt := rfl
@[simp] theorem respond_sk (a : Response) (s : State) : (respond a s).sk = s.sk := rfl
@[simp] theorem respond_trace (a : Response) (s : State) : (respond a s).trace = s.trace := rfl
@[simp] theorem respond_base (a : Response) (s : State) : (respond a s).base = s.base := rfl
@[simp] theorem respond_hdLast (a : Response) (s : State) : (respond a s).hdLast = s.hdLast := rfl
@[simp] theorem respond_acc (a : Response) (s : State) : (respond a s).acc = s.acc := rfl
@[simp] theorem respond_l (a : Response) (s : State) : (respond a s).l = s.l := rfl
@[simp] theorem respond_r (a : Response) (s : State) : (respond a s).r = s.r := rfl
@[simp] theorem respond_c (a : Response) (s : State) : (respond a s).c = s.c := rfl
@[simp] theorem respond_d (a : Response) (s : State) : (respond a s).d = s.d := rfl
@[simp] theorem respond_lcmd (a : Response) (s : State) : (respond a s).lcmd = s.lcmd := rfl
@[simp] theorem respond_stepPos (a : Response) (s : State) : (respond a s).stepPos = s.stepPos := rfl
@[simp] theorem respond_baseAddr (a : Response) (s : State) : (respond a s).baseAddr = s.baseAddr := rfl
@[simp] theorem respond_agenda (a : Response) (s : State) : (respond a s).agenda = s.agenda := rfl
@[simp] theorem respond_responses (a : Response) (s : State) : (respond a s).responses = a :: s.responses := rfl
@[simp] theorem respond_draws (a : Response) (s : State) : (respond a s).draws = s.draws := rfl

end Sys2Proof.Machine
end

