-- ==== Sys2Proof/Laws/BitOps.lean ====
section
/-! SUPPORT. What the bit-vector primitives do, index by index (index 0 is the most significant bit), and the laws of
register words. -/

namespace Sys2Proof.Machine

/-- Two vectors that agree at every index below the width are equal. -/
theorem eq_of_getMsbD {w : Nat} {a b : BitVec w} (h : ∀ i, i < w → a.getMsbD i = b.getMsbD i) : a = b :=
  BitVec.eq_of_getMsbD_eq h

theorem getMsbD_permute {w n : Nat} (T : PermTable n) (b : BitVec w) {i : Nat} (h : i < n) :
    (permute T b).getMsbD i = b.getMsbD (T[i] - 1) := by
  simp [permute, BitVec.getMsbD_ofFnBE, h]

theorem getMsbD_permute_of_ge {w n : Nat} (T : PermTable n) (b : BitVec w) {i : Nat} (h : n ≤ i) :
    (permute T b).getMsbD i = false := by
  simp [permute, BitVec.getMsbD_ofFnBE, Nat.not_lt.mpr h]

theorem permute_xor {w n : Nat} (T : PermTable n) (a b : BitVec w) :
    permute T (a ^^^ b) = permute T a ^^^ permute T b := by
  refine eq_of_getMsbD fun i h => ?_
  simp [getMsbD_permute, h]

theorem permute_not {w n : Nat} (T : PermTable n) (b : BitVec w) (hT : ∀ i (h : i < n), 1 ≤ T[i] ∧ T[i] ≤ w) :
    permute T (~~~b) = ~~~(permute T b) := by
  refine eq_of_getMsbD fun i h => ?_
  have := hT i h
  simp [getMsbD_permute, h]
  omega

theorem getMsbD_rotl {w : Nat} (b : BitVec w) (n i : Nat) (h : i < w) :
    (rotl b n).getMsbD i = b.getMsbD ((i + n) % w) := by
  simp [rotl, BitVec.getMsbD_rotateLeft, h, Nat.add_comm]

theorem rotl_rotl {w : Nat} (b : BitVec w) (m n : Nat) : rotl (rotl b m) n = rotl b (m + n) := by
  refine eq_of_getMsbD fun i h => ?_
  rw [getMsbD_rotl _ _ _ h, getMsbD_rotl _ _ _ (Nat.mod_lt _ (by omega)), getMsbD_rotl _ _ _ h]
  congr 1
  simp [Nat.add_comm, Nat.add_left_comm]

theorem getMsbD_slice {w : Nat} (b : BitVec w) {i len j : Nat} (hw : i + len ≤ w) (hj : j < len) :
    (slice b i len).getMsbD j = b.getMsbD (i + j) := by
  simp only [slice, BitVec.getMsbD, BitVec.getLsbD_extractLsb']
  have h1 : decide (j < len) = true := by simpa
  have h2 : decide (len - 1 - j < len) = true := by simp; omega
  have h3 : decide (i + j < w) = true := by simp; omega
  rw [h1, h2, h3]
  simp only [Bool.true_and]
  congr 1
  omega

/-- A table's entries lie in 1..w: every one names a bit of a `w`-bit operand. -/
def TableInRange {n : Nat} (T : PermTable n) (w : Nat) : Prop := ∀ j (h : j < n), 1 ≤ T[j] ∧ T[j] ≤ w

theorem tableIP_inRange : TableInRange tableIP 64 := by unfold TableInRange; decide +kernel
theorem tableIPInv_inRange : TableInRange tableIPInv 64 := by unfold TableInRange; decide +kernel
theorem tableE_inRange : TableInRange tableE 32 := by unfold TableInRange; decide +kernel
theorem tableP_inRange : TableInRange tableP 32 := by unfold TableInRange; decide +kernel
theorem tablePC1_inRange : TableInRange tablePC1 64 := by unfold TableInRange; decide +kernel
theorem tablePC2_inRange : TableInRange tablePC2 56 := by unfold TableInRange; decide +kernel

theorem toList_getD {n : Nat} (T : PermTable n) {j : Nat} (h : j < n) : T.toList.getD j 0 = T[j] := by
  simp [List.getD, h]

/-- A permutation in register bits: result bit n-1-j is operand bit w-T[j+1]. -/
theorem getLsbD_permute {w n : Nat} (T : PermTable n) (v : BitVec w) (hT : TableInRange T w) {j : Nat} (h : j < n) :
    (permute T v).getLsbD (n - 1 - j) = v.getLsbD (w - T.toList.getD j 0) := by
  have h1 := getMsbD_permute T v h
  have h2 := hT j h
  rw [toList_getD T h]
  simp only [BitVec.getMsbD] at h1
  simp [h, show T[j] - 1 < w by omega] at h1
  rw [h1]
  congr 1
  omega

theorem getMsbD_append {m n : Nat} (a : BitVec m) (b : BitVec n) (i : Nat) :
    (a ++ b).getMsbD i = if i < m then a.getMsbD i else b.getMsbD (i - m) := by
  simp only [BitVec.getMsbD, BitVec.getLsbD_append]
  by_cases h : i < m
  · simp [h, show ¬ (m + n - 1 - i < n) by omega, show i < m + n by omega,
      show m + n - 1 - i - n = m - 1 - i by omega]
  · by_cases h2 : i < m + n
    · simp [h, h2, show m + n - 1 - i < n by omega, show i - m < n by omega,
        show n - 1 - (i - m) = m + n - 1 - i by omega]
    · simp [h, h2, show ¬ (i - m < n) by omega]

theorem extract_append_hi {m n : Nat} (a : BitVec m) (b : BitVec n) (s len : Nat) (h : n ≤ s) :
    (a ++ b).extractLsb' s len = a.extractLsb' (s - n) len := by
  refine BitVec.eq_of_getLsbD_eq fun k hk => ?_
  simp only [BitVec.getLsbD_extractLsb', BitVec.getLsbD_append, show ¬ s + k < n by omega, if_false,
    show s + k - n = s - n + k by omega]

theorem extract_append_lo {m n : Nat} (a : BitVec m) (b : BitVec n) (s len : Nat) (h : s + len ≤ n) :
    (a ++ b).extractLsb' s len = b.extractLsb' s len := by
  refine BitVec.eq_of_getLsbD_eq fun k hk => ?_
  simp only [BitVec.getLsbD_extractLsb', BitVec.getLsbD_append, show s + k < n by omega, if_true]

theorem popcount_le {w : Nat} (v : BitVec w) : popcount v ≤ w := by
  simpa [popcount] using List.countP_le_length (p := fun i => v.getLsbD i) (l := List.range w)

theorem hd_le {w : Nat} (a b : BitVec w) : hd a b ≤ w := popcount_le _

@[simp] theorem hd_self {w : Nat} (a : BitVec w) : hd a a = 0 := by simp [hd, popcount]

/-- The distance counts the indexes at which two values differ. -/
theorem hd_eq_length_filter {w : Nat} (a b : BitVec w) :
    hd a b = ((List.range w).filter fun k => a.getLsbD k != b.getLsbD k).length := by
  simp only [hd, popcount, List.countP_eq_length_filter, BitVec.getLsbD_xor]

/-! ## Register words -/

/-- The upper half of two joined words. -/
theorem extract_hi_append (x y : Word) : (x ++ y).extractLsb' 32 32 = x := by
  refine BitVec.eq_of_getLsbD_eq fun i h => ?_
  simp only [BitVec.getLsbD_extractLsb', BitVec.getLsbD_append]
  simp [h]

/-- The lower half of two joined words. -/
theorem extract_lo_append (x y : Word) : (x ++ y).extractLsb' 0 32 = y := by
  refine BitVec.eq_of_getLsbD_eq fun i h => ?_
  simp only [BitVec.getLsbD_extractLsb', BitVec.getLsbD_append]
  simp [h]

theorem getLsbD_hiWord (v : Block) {k : Nat} (h : k < 32) : (hiWord v).getLsbD k = v.getLsbD (32 + k) := by
  rw [hiWord, BitVec.getLsbD_extractLsb']
  simp [h]

theorem getLsbD_loWord (v : Block) {k : Nat} (h : k < 32) : (loWord v).getLsbD k = v.getLsbD k := by
  rw [loWord, BitVec.getLsbD_extractLsb']
  simp [h]

@[simp] theorem hiWord_setHiWord (v : Block) (x : Word) : hiWord (setHiWord v x) = x := extract_hi_append _ _
@[simp] theorem loWord_setHiWord (v : Block) (x : Word) : loWord (setHiWord v x) = loWord v := extract_lo_append _ _
@[simp] theorem loWord_setLoWord (v : Block) (x : Word) : loWord (setLoWord v x) = x := extract_lo_append _ _
@[simp] theorem hiWord_setLoWord (v : Block) (x : Word) : hiWord (setLoWord v x) = hiWord v := extract_hi_append _ _

/-- A block is its HI word followed by its LO word. -/
theorem hiWord_append_loWord (v : Block) : hiWord v ++ loWord v = v := by
  refine BitVec.eq_of_getLsbD_eq fun i h => ?_
  simp only [hiWord, loWord, BitVec.getLsbD_append, BitVec.getLsbD_extractLsb']
  by_cases h' : i < 32
  · simp [h']
  · simp [h', show i - 32 < 32 by omega, show 32 + (i - 32) = i by omega]

/-- A register after a write to one of its words: that half is the word, the other as before (20_memory.md rule R75). -/
theorem setWord_halfReplaced (h : Half) (old : Block) (v : Word) : Safety.halfReplaced h old v (setWord old h v) := by
  cases h
  all_goals
    refine ⟨fun k hk => ?_, fun k hk => ?_⟩
    all_goals
      first
        | rw [← getLsbD_hiWord _ hk]
        | rw [← getLsbD_loWord _ hk]
      simp only [setWord, hiWord_setHiWord, loWord_setHiWord, hiWord_setLoWord, loWord_setLoWord]
  · exact getLsbD_loWord _ hk
  · exact getLsbD_hiWord _ hk

@[simp] theorem wordOf_setWord (v : Block) (h : Half) (x : Word) : wordOf (setWord v h x) h = x := by
  cases h <;> simp [wordOf, setWord]

theorem wordOf_setWord_of_ne (v : Block) {h h' : Half} (x : Word) (hne : h' ≠ h) :
    wordOf (setWord v h x) h' = wordOf v h' := by
  cases h <;> cases h' <;> simp_all [wordOf, setWord]

end Sys2Proof.Machine
end

