-- ==== Sys2Proof/Laws/Analyzer.lean ====
section
/-! SUPPORT. What one sample and one accumulation do to the accumulators, said once. -/

namespace Sys2Proof.Machine

@[simp] theorem addSample_min_toNat (a : Acc) (d : Distance) :
    (a.addSample d).min.toNat = min a.min.toNat d.toNat := by
  simp only [Acc.addSample]
  split <;> rename_i h <;> rw [BitVec.le_def] at h <;> omega

@[simp] theorem addSample_max_toNat (a : Acc) (d : Distance) :
    (a.addSample d).max.toNat = max a.max.toNat d.toNat := by
  simp only [Acc.addSample]
  split <;> rename_i h <;> rw [BitVec.le_def] at h <;> omega

theorem addSample_sum_toNat (a : Acc) (d : Distance) :
    (a.addSample d).sum.toNat = (a.sum.toNat + d.toNat) % 2 ^ 64 := by
  simp only [Acc.addSample, BitVec.toNat_add, BitVec.toNat_setWidth]
  omega

theorem addSample_count_toNat (a : Acc) (d : Distance) :
    (a.addSample d).count.toNat = (a.count.toNat + 1) % 2 ^ 32 := by
  simp [Acc.addSample]

theorem roundDistance_toNat (s : State) (r : Round) : (roundDistance s r).toNat = hd s.trace[r] s.base[r] := by
  have := hd_le s.trace[r] s.base[r]
  simp only [roundDistance, BitVec.toNat_ofNat]
  omega

theorem roundDistance_le (s : State) (r : Round) : (roundDistance s r).toNat ≤ 64 := by
  rw [roundDistance_toNat]
  exact hd_le _ _

variable {s : State} {r : Round}

theorem accumulate_acc (h : included s r = true) : (accumulate s).acc[r] = s.acc[r].addSample (roundDistance s r) := by
  simp [accumulate, h]

theorem accumulate_acc_excluded (h : included s r = false) : (accumulate s).acc[r] = s.acc[r] := by
  simp [accumulate, h]

theorem accumulate_hdLast (h : included s r = true) : (accumulate s).hdLast[r] = roundDistance s r := by
  simp [accumulate, h]

theorem accumulate_hdLast_excluded (h : included s r = false) : (accumulate s).hdLast[r] = s.hdLast[r] := by
  simp [accumulate, h]

/-- No included round's COUNT is full: what AN_ACC's second check says (60_exceptions.md rule R308). -/
theorem accFull_eq_false : accFull s = false ↔ ∀ r : Round, included s r = true → s.acc[r].count ≠ 0xFFFFFFFF := by
  simp [accFull]

theorem accFull_eq_true : accFull s = true ↔ ∃ r : Round, included s r = true ∧ s.acc[r].count = 0xFFFFFFFF := by
  simp [accFull]

end Sys2Proof.Machine
end

