-- ==== Sys2Proof/Laws/Cipher.lean ====
section
/-! SUPPORT. The cipher's pure functions step by step: the recursions' equations, the flip mask, and the valid masks of a
running encryption. -/

namespace Sys2Proof.Machine

open Sys2Proof.Safety

@[simp] theorem desHalves_zero (key pt : Block) : desHalves key pt 0 = initialHalves pt := rfl

theorem desHalves_succ (key pt : Block) (n : Nat) :
    desHalves key pt (n + 1) =
      ((desHalves key pt n).2, (desHalves key pt n).1 ^^^ roundF (desHalves key pt n).2 (subkeyOf (keyHalves key (n + 1)))) :=
  rfl

theorem schedule_getElem (key : Block) (r : Round) : (schedule key)[r] = subkeyOf (keyHalves key (r.val + 1)) := by
  simp [schedule, subkey]

/-- The shift totals grow by the schedule's entries. -/
theorem totalShift_succ (r : Round) : totalShift (r.val + 1) = totalShift r.val + shiftSchedule[r] := by
  have h : ∀ r : Round, totalShift (r.val + 1) = totalShift r.val + shiftSchedule[r] := by decide +kernel
  exact h r

/-- The flip mask of position p is 1 at DES bit p alone. -/
theorem getMsbD_flipMask {p j : Nat} (hp : 1 ≤ p) (hp' : p ≤ 64) (hj : j < 64) :
    (flipMask p).getMsbD j = decide (j + 1 = p) := by
  simp only [flipMask, BitVec.getMsbD, BitVec.getLsbD_shiftLeft, BitVec.getLsbD_one, hj, decide_true, Bool.true_and]
  by_cases h : j + 1 = p
  · subst h; simp; omega
  · simp [h]; omega

theorem getLsbD_setRoundBit (m : BitVec 16) (i j : Round) :
    (setRoundBit m i).getLsbD j.val = (m.getLsbD j.val || decide (j = i)) := by
  simp only [setRoundBit, BitVec.getLsbD_or, BitVec.getLsbD_shiftLeft, BitVec.getLsbD_one, j.isLt, decide_true,
    Bool.true_and]
  congr 1
  by_cases h : j = i
  · simp [h]
  · have : j.val ≠ i.val := fun h' => h (Fin.ext h')
    simp [h]
    omega

/-- TVALID after one round more of an encryption. -/
theorem setRoundBit_prefix (r : Round) :
    setRoundBit (BitVec.ofNat 16 (2 ^ r.val - 1)) r = BitVec.ofNat 16 (2 ^ (r.val + 1) - 1) := by
  have h : ∀ r : Round, setRoundBit (BitVec.ofNat 16 (2 ^ r.val - 1)) r = BitVec.ofNat 16 (2 ^ (r.val + 1) - 1) := by
    decide +kernel
  exact h r

variable {s : State} {r : Round} {key pt : Block}

/-- A ROUND step computes the next halves of the cipher. -/
theorem encryptRound_halves (hsk : s.sk = schedule key) (h : (s.l, s.r) = desHalves key pt r.val) :
    ((encryptRound r s).l, (encryptRound r s).r) = desHalves key pt (r.val + 1) := by
  rw [desHalves_succ, encryptRound_l, encryptRound_r, hsk, schedule_getElem, ← h]

/-- A ROUND step writes its own trace entry. -/
theorem encryptRound_trace_self (hsk : s.sk = schedule key) (h : (s.l, s.r) = desHalves key pt r.val) :
    (encryptRound r s).trace[r] = desTrace key pt r := by
  have e := encryptRound_halves hsk h
  rw [desTrace, ← e]
  simp

/-- A ROUND step keeps every other trace entry. -/
theorem encryptRound_trace_of_ne {r' : Round} (h : r' ≠ r) : (encryptRound r s).trace[r'] = s.trace[r'] := by
  have : r.val ≠ r'.val := fun e => h (Fin.ext e.symm)
  simp [this]

end Sys2Proof.Machine
end

