-- ==== Sys2Proof/Laws/Window.lean ====
section
/-! SUPPORT. What the register map and the bus accesses can do, said once. -/

namespace Sys2Proof.Machine

theorem mem_everyRound {f : Round → List Reg} {g : Reg} : g ∈ everyRound f ↔ ∃ r, g ∈ f r := by
  simp [everyRound]

/-- The map's list has every word. -/
theorem mem_all (g : Reg) : g ∈ Reg.all := by
  simp only [Reg.all, List.mem_append, mem_everyRound, bothHalves]
  cases g <;> try (rename_i h; cases h) <;> simp
  all_goals simp

theorem offsets_nodup : (Reg.all.map Reg.offset).Nodup := by decide +kernel

/-- Two words have different offsets. -/
theorem offset_injective {g g' : Reg} (h : g.offset = g'.offset) : g = g' :=
  List.inj_on_of_nodup_map offsets_nodup (mem_all g) (mem_all g') h

theorem ofOffset_eq_some {off : Nat} {g : Reg} : Reg.ofOffset off = some g ↔ g.offset = off := by
  constructor
  · intro h
    simpa using List.find?_some h
  · rintro rfl
    cases hf : Reg.ofOffset g.offset with
    | none => simpa using List.find?_eq_none.mp hf g (mem_all g)
    | some g' => rw [offset_injective (by simpa using List.find?_some hf : g'.offset = g.offset)]

theorem ofOffset_eq_none {off : Nat} : Reg.ofOffset off = none ↔ ¬ ∃ g : Reg, g.offset = off := by
  rw [Option.eq_none_iff_forall_ne_some]
  simp [ofOffset_eq_some]

theorem offset_mod_four (g : Reg) : g.offset % 4 = 0 := by
  have h : ∀ g ∈ Reg.all, g.offset % 4 = 0 := by decide +kernel
  exact h g (mem_all g)

theorem offset_lt (g : Reg) : g.offset < 0x500 := by
  have h : ∀ g ∈ Reg.all, g.offset < 0x500 := by decide +kernel
  exact h g (mem_all g)

@[simp] theorem accessed_offset (g : Reg) : accessed 4 g.offset = some g := by
  simp [accessed, offset_mod_four, ofOffset_eq_some]

/-- An access reaches a word exactly when it is a word access to that word's offset. -/
theorem accessed_eq_some {width off : Nat} {g : Reg} : accessed width off = some g ↔ width = 4 ∧ g.offset = off := by
  constructor
  · intro h
    unfold accessed at h
    split at h
    · exact ⟨by omega, ofOffset_eq_some.mp h⟩
    · cases h
  · rintro ⟨rfl, rfl⟩
    simp

/-- An access reaches no word exactly when it is not a word, not aligned or not mapped. -/
theorem accessed_eq_none {width off : Nat} :
    accessed width off = none ↔ width ≠ 4 ∨ off % 4 ≠ 0 ∨ ¬ ∃ g : Reg, g.offset = off := by
  unfold accessed
  split
  · rename_i h
    simp [ofOffset_eq_none, h]
  · rename_i h
    simp only [true_iff]
    omega

@[simp] theorem memRead_offset (g : Reg) (s : State) : memRead 4 g.offset s = .ok (readWord g s) := by
  simp [memRead]

@[simp] theorem memWrite_offset (g : Reg) (v : Word) (s : State) : memWrite 4 g.offset v s = .ok (writeWord g v s) := by
  simp [memWrite]

/-- Reading STATUS draws at most one free value and changes nothing else. -/
theorem readStatus_state (s : State) : (readStatus s).2 = s ∨ (readStatus s).2 = { s with draws := s.draws + 1 } := by
  unfold readStatus
  split <;> simp [draw]

/-- Reading a word draws at most one free value and changes nothing else. -/
theorem readWord_state (g : Reg) (s : State) :
    (readWord g s).2 = s ∨ (readWord g s).2 = { s with draws := s.draws + 1 } := by
  unfold readWord
  split
  · simp
  · split
    · exact readStatus_state s
    · split <;> simp [draw]

/-- Everything a write to a word can do: clear or set BOVR, accept a command, store to a host register, or nothing. -/
theorem writeWord_cases (g : Reg) (v : Word) (s : State) :
    (g = .status ∧ writeWord g v s = { s with bovr := s.bovr && !v.getLsbD 3 }) ∨
    (g ≠ .status ∧ s.busy = true ∧ writeWord g v s = { s with bovr := true }) ∨
    (g = .cmd ∧ s.busy = false ∧ writeWord g v s = accept v s) ∨
    (g ≠ .status ∧ g ≠ .cmd ∧ s.busy = false ∧ writeWord g v s = storeReg g v s) := by
  unfold writeWord
  split
  · exact .inl ⟨‹_›, rfl⟩
  · split
    · exact .inr (.inl ⟨‹_›, ‹_›, rfl⟩)
    · split
      · exact .inr (.inr (.inl ⟨‹_›, by simpa using ‹¬ s.busy = true›, rfl⟩))
      · exact .inr (.inr (.inr ⟨‹_›, ‹_›, by simpa using ‹¬ s.busy = true›, rfl⟩))

/-- A store changes KEY, PT, OPA and OPB at most. -/
theorem storeReg_frame (g : Reg) (v : Word) (s : State) :
    storeReg g v s = { s with
      key := (storeReg g v s).key, pt := (storeReg g v s).pt, opa := (storeReg g v s).opa, opb := (storeReg g v s).opb } := by
  cases g <;> rfl

theorem windowOffset_offset (baseAddr : Nat) (g : Reg) : windowOffset baseAddr (baseAddr + g.offset) = some g.offset := by
  have h := offset_lt g
  simp only [windowOffset]
  rw [if_pos (by omega)]
  simp

/-- A host read at a word's bus address is answered with what the word reads as. -/
theorem hostRead_offset (g : Reg) (s : State) :
    hostRead 4 (s.baseAddr + g.offset) s = respond (.data (readWord g s).1) (readWord g s).2 := by
  simp [hostRead, windowOffset_offset]

/-- A host write at a word's bus address writes the word. -/
theorem hostWrite_offset (g : Reg) (v : Word) (s : State) :
    hostWrite 4 (s.baseAddr + g.offset) v s = respond .done (writeWord g v s) := by
  simp [hostWrite, windowOffset_offset]

/-- Everything a host read can do: the host gets an answer, and free values may be drawn. -/
theorem hostRead_cases (width addr : Nat) (s : State) :
    ∃ a n, hostRead width addr s = { s with responses := a :: s.responses, draws := n } := by
  unfold hostRead
  cases windowOffset s.baseAddr addr with
  | none => exact ⟨.notAddressed, s.draws, rfl⟩
  | some off =>
    simp only
    unfold memRead
    cases accessed width off with
    | none => exact ⟨.busError, s.draws, rfl⟩
    | some g =>
      rcases readWord_state g s with h | h
      · exact ⟨.data (readWord g s).1, s.draws, by simp [respond, h]⟩
      · exact ⟨.data (readWord g s).1, s.draws + 1, by simp [respond, h]⟩

/-- Everything a host write can do: the host gets an answer, after the write to a mapped word or after nothing. -/
theorem hostWrite_cases (width addr : Nat) (v : Word) (s : State) :
    (∃ a, hostWrite width addr v s = respond a s) ∨
    ∃ g : Reg, width = 4 ∧ addr = s.baseAddr + g.offset ∧ hostWrite width addr v s = respond .done (writeWord g v s) := by
  unfold hostWrite
  cases hw : windowOffset s.baseAddr addr with
  | none => exact .inl ⟨_, rfl⟩
  | some off =>
    have hoff : addr = s.baseAddr + off := by
      unfold windowOffset at hw
      split at hw
      · simp at hw; omega
      · cases hw
    simp only
    unfold memWrite
    cases ha : accessed width off with
    | none => exact .inl ⟨_, rfl⟩
    | some g =>
      obtain ⟨h4, ho⟩ := accessed_eq_some.mp ha
      exact .inr ⟨g, h4, by omega, rfl⟩

/-- WAIT's turn: the host gets an answer, free values may be drawn, and the engine's step and another poll may be put first. -/
theorem hostWait_cases (s : State) :
    ∃ a n evs, hostWait s = { s with responses := a :: s.responses, draws := n, agenda := evs } := by
  have h := readWord_state .status s
  unfold hostWait
  rcases h with h | h <;> simp only [h] <;> split
  · exact ⟨_, _, _, rfl⟩
  · exact ⟨_, _, s.agenda, rfl⟩
  · exact ⟨_, _, _, rfl⟩
  · exact ⟨_, _, s.agenda, rfl⟩

/-- The host's branch: the host gets an answer, free values may be drawn, and events may be skipped. -/
theorem hostSkipIfErr_cases (k : Nat) (s : State) :
    ∃ a n evs, hostSkipIfErr k s = { s with responses := a :: s.responses, draws := n, agenda := evs } := by
  have h := readWord_state .status s
  unfold hostSkipIfErr
  rcases h with h | h <;> simp only [h] <;> split
  · exact ⟨_, _, s.agenda, rfl⟩
  · exact ⟨_, _, _, rfl⟩
  · exact ⟨_, _, s.agenda, rfl⟩
  · exact ⟨_, _, _, rfl⟩

/-- The fields of STATUS where 10_state.md rule R32 puts them. -/
theorem packStatus_fields (busy done baseValid bovr : Bool) (e : ErrCode) (f : CtrlState) :
    (packStatus busy done baseValid bovr e f).getLsbD 0 = busy ∧
    (packStatus busy done baseValid bovr e f).getLsbD 1 = done ∧
    (packStatus busy done baseValid bovr e f).getLsbD 2 = baseValid ∧
    (packStatus busy done baseValid bovr e f).getLsbD 3 = bovr ∧
    (packStatus busy done baseValid bovr e f).extractLsb' 4 4 = e.code ∧
    (packStatus busy done baseValid bovr e f).extractLsb' 8 5 = f.code ∧
    (packStatus busy done baseValid bovr e f).extractLsb' 13 19 = 0 := by
  unfold packStatus
  refine ⟨?_, ?_, ?_, ?_, ?_, ?_, ?_⟩
  iterate 4 simp only [BitVec.getLsbD_append]; simp
  all_goals simp (disch := simp) only [extract_append_hi, extract_append_lo]; simp

theorem ctrlState_code_le (f : CtrlState) : f.code.toNat ≤ 17 := by
  have h : ∀ r : Round, (CtrlState.round r).code.toNat ≤ 17 := by decide +kernel
  cases f with
  | initial => decide
  | round r => exact h r
  | final => decide

/-- BUSY is exact in every read of STATUS (70_reset_and_hazards.md rule R342). -/
theorem readWord_status_busy (s : State) : (readWord .status s).1.getLsbD 0 = s.busy := by
  have e : readWord .status s = readStatus s := by simp [readWord]
  rw [e]
  unfold readStatus
  split <;> simp only [draw, statusWord] <;> exact (packStatus_fields _ _ _ _ _ _).1

end Sys2Proof.Machine
end

