-- ==== Sys2Proof/Laws/Exec.lean ====
section
/-! SUPPORT. Everything a command, an engine step and a step of the system can do, said once; later proofs cite these and do not
unfold the machine. -/

namespace Sys2Proof.Machine

open Sys2Proof.Safety

variable {s t : State} {i : Instr}

/-- The command is not an ENCRYPT past its first step. -/
def AtFirst (i : Instr) (s : State) : Prop := ∀ pen tgt pos, i = .encrypt pen tgt pos → s.stepPos = .first

/-- Everything a command's step can do. -/
theorem exec_cases (h : exec i s = .next t) :
    (AtFirst i s ∧ ∃ e, t = complete e s) ∨
    (AtFirst i s ∧ (∀ g, inWriteSet i s g = true ↔ ∃ a, g = .res a) ∧ ∃ v, t = complete .none { s with res := v }) ∨
    (i = .ksched ∧ t = complete .none (loadSchedule s.key s)) ∨
    (i = .anClear ∧
      t = complete .none { s with acc := Vector.replicate 16 Acc.empty, hdvalid := 0, baseValid := false }) ∨
    (i = .anBase ∧ s.tvalid = allRounds ∧ t = complete .none { s with base := s.trace, baseValid := true }) ∨
    (i = .anAcc ∧ s.baseValid = true ∧ accFull s = false ∧ t = complete .none (accumulate s)) ∨
    ∃ pen tgt pos, i = .encrypt pen tgt pos ∧
      ((s.stepPos = .idle ∧ t = s) ∨
        (s.stepPos = .first ∧ positionOk pen pos = true ∧ t = encryptInitial pen tgt pos s) ∨
        (∃ r, s.stepPos = .round r ∧ t = encryptRound r s) ∨
        (s.stepPos = .last ∧ t = encryptFinal s)) := by
  cases i with
  | nop => left; simp only [exec, execNop, Host.Outcome.next.injEq] at h; exact ⟨by simp [AtFirst], _, h.symm⟩
  | ksched => right; right; left; simp only [exec, execKsched, Host.Outcome.next.injEq] at h; exact ⟨rfl, h.symm⟩
  | encrypt pen tgt pos =>
    simp only [exec, execEncrypt] at h
    split at h
    · rename_i hp
      simp only [Host.Outcome.next.injEq] at h
      exact .inr (.inr (.inr (.inr (.inr (.inr ⟨_, _, _, rfl, .inl ⟨hp, h.symm⟩⟩)))))
    · rename_i hp
      split at h <;> simp only [Host.Outcome.next.injEq] at h
      · exact .inr (.inr (.inr (.inr (.inr (.inr ⟨_, _, _, rfl, .inr (.inl ⟨hp, ‹_›, h.symm⟩)⟩)))))
      · exact .inl ⟨fun _ _ _ _ => hp, _, h.symm⟩
    · rename_i r hp
      simp only [Host.Outcome.next.injEq] at h
      exact .inr (.inr (.inr (.inr (.inr (.inr ⟨_, _, _, rfl, .inr (.inr (.inl ⟨r, hp, h.symm⟩))⟩)))))
    · rename_i hp
      simp only [Host.Outcome.next.injEq] at h
      exact .inr (.inr (.inr (.inr (.inr (.inr ⟨_, _, _, rfl, .inr (.inr (.inr ⟨hp, h.symm⟩))⟩)))))
  | permute tb =>
    simp only [exec, execPermute, Host.Outcome.next.injEq] at h
    exact .inr (.inl ⟨by simp [AtFirst], fun g => by cases g <;> simp [inWriteSet], _, h.symm⟩)
  | rotl28 n =>
    simp only [exec, execRotl28, Host.Outcome.next.injEq] at h
    exact .inr (.inl ⟨by simp [AtFirst], fun g => by cases g <;> simp [inWriteSet], _, h.symm⟩)
  | xor wa wb =>
    simp only [exec, execXor] at h
    split at h <;> simp only [Host.Outcome.next.injEq] at h
    · exact .inr (.inl ⟨by simp [AtFirst], fun g => by cases g <;> simp [inWriteSet], _, h.symm⟩)
    · exact .inl ⟨by simp [AtFirst], _, h.symm⟩
  | sbox box =>
    simp only [exec, execSbox, Host.Outcome.next.injEq] at h
    exact .inr (.inl ⟨by simp [AtFirst], fun g => by cases g <;> simp [inWriteSet], _, h.symm⟩)
  | feval =>
    simp only [exec, execFeval, Host.Outcome.next.injEq] at h
    exact .inr (.inl ⟨by simp [AtFirst], fun g => by cases g <;> simp [inWriteSet], _, h.symm⟩)
  | hdist wa wb =>
    simp only [exec, execHdist] at h
    split at h <;> simp only [Host.Outcome.next.injEq] at h
    · exact .inr (.inl ⟨by simp [AtFirst], fun g => by cases g <;> simp [inWriteSet], _, h.symm⟩)
    · exact .inl ⟨by simp [AtFirst], _, h.symm⟩
  | anClear =>
    simp only [exec, execAnClear, Host.Outcome.next.injEq] at h
    exact .inr (.inr (.inr (.inl ⟨rfl, h.symm⟩)))
  | anBase =>
    simp only [exec, execAnBase] at h
    split at h <;> simp only [Host.Outcome.next.injEq] at h
    · exact .inr (.inr (.inr (.inr (.inl ⟨rfl, ‹_›, h.symm⟩))))
    · exact .inl ⟨by simp [AtFirst], _, h.symm⟩
  | anAcc =>
    simp only [exec, execAnAcc] at h
    split at h
    · simp only [Host.Outcome.next.injEq] at h
      exact .inl ⟨by simp [AtFirst], _, h.symm⟩
    · split at h <;> simp only [Host.Outcome.next.injEq] at h
      · exact .inl ⟨by simp [AtFirst], _, h.symm⟩
      · refine .inr (.inr (.inr (.inr (.inr (.inl ⟨rfl, by simpa using ‹¬ s.baseValid = false›, ?_, h.symm⟩)))))
        simpa using ‹¬ accFull s = true›

/-- Everything an engine step can do. -/
theorem engineStep_cases (h : engineStep s = .next t) :
    (s.stepPos = .idle ∧ t = s) ∨
    (s.stepPos ≠ .idle ∧ (∃ r, decode s.lcmd = .error r) ∧ t = complete .illegalCmd s) ∨
    (s.stepPos ≠ .idle ∧ ∃ i, decode s.lcmd = .ok i ∧ exec i s = .next t) := by
  unfold engineStep at h
  split at h
  · exact .inl ⟨‹_›, by simpa using h.symm⟩
  · split at h
    · rename_i r hd
      exact .inr (.inl ⟨‹_›, ⟨r, hd⟩, by simpa using h.symm⟩)
    · rename_i i hd
      exact .inr (.inr ⟨‹_›, i, hd, h⟩)

/-- The state an event acts on: its agenda has lost the event. -/
theorem nextEvent_state (s : State) : (nextEvent s).2 = { s with agenda := s.agenda.tail } := by
  unfold nextEvent
  cases ha : s.agenda <;> simp
  rw [← ha]

/-- A read event is a host read by the state whose agenda has lost it. -/
theorem step_read {width addr : Nat} {rest : List Event} (h : s.agenda = .read width addr :: rest) :
    step s = .next (hostRead width addr { s with agenda := rest }) := by
  simp [step, nextEvent, h, perform]

/-- A write event is a host write by the state whose agenda has lost it. -/
theorem step_write {width addr : Nat} {v : Word} {rest : List Event} (h : s.agenda = .write width addr v :: rest) :
    step s = .next (hostWrite width addr v { s with agenda := rest }) := by
  simp [step, nextEvent, h, perform]

/-- Everything a step of the system can do. -/
theorem step_cases (h : step s = .next t) :
    (eventOf s = .engine ∧ engineStep { s with agenda := s.agenda.tail } = .next t) ∨
    (∃ w a, eventOf s = .read w a ∧ t = hostRead w a { s with agenda := s.agenda.tail }) ∨
    (∃ w a v, eventOf s = .write w a v ∧ t = hostWrite w a v { s with agenda := s.agenda.tail }) ∨
    (eventOf s = .wait ∧ t = hostWait { s with agenda := s.agenda.tail }) ∨
    (∃ n, eventOf s = .skipIfErr n ∧ t = hostSkipIfErr n { s with agenda := s.agenda.tail }) ∨
    (eventOf s = .reset ∧ t = resetEvent { s with agenda := s.agenda.tail }) := by
  unfold step at h
  rw [nextEvent_state] at h
  unfold eventOf
  cases he : (nextEvent s).1 <;> simp only [he, perform, Host.Outcome.next.injEq] at h
  · exact .inl ⟨rfl, h⟩
  · exact .inr (.inl ⟨_, _, rfl, h.symm⟩)
  · exact .inr (.inr (.inl ⟨_, _, _, rfl, h.symm⟩))
  · exact .inr (.inr (.inr (.inl ⟨rfl, h.symm⟩)))
  · exact .inr (.inr (.inr (.inr (.inl ⟨_, rfl, h.symm⟩))))
  · exact .inr (.inr (.inr (.inr (.inr ⟨rfl, h.symm⟩))))

/-- A step of the system other than the engine's, in terms of the registers it can change: BOVR, an acceptance, a host register;
or a reset. -/
theorem hostStep_cases (h : step s = .next t) (he : eventOf s ≠ .engine) :
    (∃ u, (u = s ∨ u = { s with bovr := u.bovr } ∨ (s.busy = false ∧ ∃ v, u = accept v s) ∨
        (s.busy = false ∧ u = { s with key := u.key, pt := u.pt, opa := u.opa, opb := u.opb })) ∧
      t = { u with agenda := t.agenda, responses := t.responses, draws := t.draws }) ∨
    (eventOf s = .reset ∧ t = resetEvent { s with agenda := s.agenda.tail }) := by
  rcases step_cases h with h | ⟨w, a, -, h⟩ | ⟨w, a, v, -, h⟩ | ⟨-, h⟩ | ⟨n, -, h⟩ | h
  · exact absurd h.1 he
  · obtain ⟨r, n, hr⟩ := hostRead_cases w a { s with agenda := s.agenda.tail }
    exact .inl ⟨s, .inl rfl, by rw [h, hr]⟩
  · left
    rcases hostWrite_cases w a v { s with agenda := s.agenda.tail } with ⟨r, hr⟩ | ⟨g, -, -, hr⟩
    · exact ⟨s, .inl rfl, by rw [h, hr]; rfl⟩
    · rcases writeWord_cases g v { s with agenda := s.agenda.tail } with ⟨-, hw⟩ | ⟨-, -, hw⟩ | ⟨-, hb, hw⟩ | ⟨-, -, hb, hw⟩
      · exact ⟨{ s with bovr := s.bovr && !v.getLsbD 3 }, .inr (.inl rfl), by rw [h, hr, hw]; rfl⟩
      · exact ⟨{ s with bovr := true }, .inr (.inl rfl), by rw [h, hr, hw]; rfl⟩
      · exact ⟨accept v s, .inr (.inr (.inl ⟨hb, v, rfl⟩)), by rw [h, hr, hw]; rfl⟩
      · refine ⟨{ s with key := t.key, pt := t.pt, opa := t.opa, opb := t.opb }, .inr (.inr (.inr ⟨hb, rfl⟩)), ?_⟩
        rw [h, hr, hw, storeReg_frame]
        rfl
  · obtain ⟨r, n, evs, hr⟩ := hostWait_cases { s with agenda := s.agenda.tail }
    exact .inl ⟨s, .inl rfl, by rw [h, hr]⟩
  · obtain ⟨r, k, evs, hr⟩ := hostSkipIfErr_cases n { s with agenda := s.agenda.tail }
    exact .inl ⟨s, .inl rfl, by rw [h, hr]⟩
  · exact .inr h

/-- Every command answers a next state. -/
theorem exec_next (i : Instr) (s : State) : ∃ t, exec i s = .next t := by
  cases i <;> simp only [exec, execNop, execKsched, execEncrypt, execPermute, execRotl28, execXor, execSbox, execFeval,
    execHdist, execAnClear, execAnBase, execAnAcc]
  all_goals first | exact ⟨_, rfl⟩ | (repeat' split) <;> exact ⟨_, rfl⟩

/-- Every step of the engine answers a next state. -/
theorem engineStep_next (s : State) : ∃ t, engineStep s = .next t := by
  unfold engineStep
  split
  · exact ⟨_, rfl⟩
  · split
    · exact ⟨_, rfl⟩
    · exact exec_next _ s

/-- An engine event of the system is an engine step on the state whose agenda has lost it. -/
theorem engineStep_of_step (h : step s = .next t) (he : eventOf s = .engine) :
    engineStep { s with agenda := s.agenda.tail } = .next t := by
  rcases step_cases h with ⟨-, h⟩ | ⟨_, _, h', -⟩ | ⟨_, _, _, h', -⟩ | ⟨h', -⟩ | ⟨_, h', -⟩ | ⟨h', -⟩
  · exact h
  all_goals rw [he] at h'; cases h'

/-! ## Runs -/

theorem core_run_succ (M : Host.Core) (n : Nat) (s t : M.State) (h : M.step s = .next t) :
    M.run (n + 1) s = M.run n t := by
  simp [Host.Core.run, h]

@[simp] theorem run_zero (s : State) : run 0 s = .next s := rfl

theorem run_succ (n : Nat) (h : step s = .next t) : run (n + 1) s = run n t := core_run_succ Sys2Proof.core n s t h

end Sys2Proof.Machine
end

