-- ==== Sys2Proof/Laws/HostReport.lean ====
section
/-! SUPPORT. When the sinks receive a record, said once. -/

namespace Sys2Proof.Machine

theorem hasSucceeded_iff {i : Instr} {s : State} :
    hasSucceeded i s = true ↔ s.busy = false ∧ s.done = true ∧ s.err = .none ∧ decode s.lcmd = .ok i := by
  simp [hasSucceeded]

/-- While the latched word decodes to a command, no other command counts as the one that has succeeded. -/
theorem hasSucceeded_unique {i i' : Instr} {s : State} (h : hasSucceeded i s = true) (h' : hasSucceeded i' s = true) : i = i' := by
  have e := (hasSucceeded_iff.mp h).2.2.2.symm.trans (hasSucceeded_iff.mp h').2.2.2
  simpa using e

/-- The Trace Sink receives a record exactly of a run whose ENCRYPT has completed with ERR = 0. -/
theorem traceSink_isSome {info : RunInfo} {s : State} : (traceSink info s).isSome = hasSucceeded info.command s := by
  unfold traceSink
  split <;> simp [*]

/-- The Summary Sink receives a record exactly of a run whose ENCRYPT has completed with ERR = 0. -/
theorem summarySink_isSome {info : RunInfo} {s : State} : (summarySink info s).isSome = hasSucceeded info.command s := by
  unfold summarySink
  split <;> simp [*]

/-- A final-round distance is HD_LAST[16] after an AN_ACC that succeeded. -/
theorem finalDistance_eq_some {s : State} {d : Nat} :
    finalDistance s = some d ↔ hasSucceeded .anAcc s = true ∧ s.hdLast[15].toNat = d := by
  unfold finalDistance
  split <;> simp [*]

/-- A run that ended with an error, whether in its ENCRYPT or in its AN_ACC, reaches no sink and has no final-round distance (of an
AN_ACC that failed: the model's choice, log entry 25). -/
theorem sinks_of_failed {info : RunInfo} {s : State} (h : s.err ≠ .none) :
    traceSink info s = none ∧ summarySink info s = none ∧ finalDistance s = none := by
  simp [traceSink, summarySink, finalDistance, hasSucceeded, h]

end Sys2Proof.Machine
end

