-- ==== Sys2Proof/Laws/PerInstr.lean ====
section
/-! SUPPORT. For every command: its encoding agrees with the mask and match of its row of the opcode map
(30_encoding.md rule R121). One lemma per constructor. -/

/-- Under its row's mask the word of a well-formed command is its row's match. -/
def Sys2Proof.Laws.MaskMatch.Statement (i : Sys2Proof.Instr) : Prop :=
  i.wellFormed = true → Sys2Proof.encode i &&& i.opcode.mask = i.opcode.matchWord

namespace Sys2Proof.Laws.MaskMatch

open Sys2Proof

-- One theorem after another: each is a kernel evaluation, which would need a thread of its own.
set_option Elab.async false

theorem nop : Statement .nop := by unfold Statement; decide +kernel

theorem ksched : Statement .ksched := by unfold Statement; decide +kernel

theorem encrypt (pen : Bool) (tgt : Target) (pos : Nat) : Statement (.encrypt pen tgt pos) := by
  intro hw
  have h : ∀ (p : BitVec 7) (t u : BitVec 1),
      encodeX p t u .encrypt &&& Opcode.encrypt.mask = Opcode.encrypt.matchWord := by decide +kernel
  exact h _ _ _

theorem permute (t : Table) : Statement (.permute t) := by
  cases t <;> unfold Statement <;> decide +kernel

theorem rotl28 (n : Nat) : Statement (.rotl28 n) := by
  intro hw
  have h : ∀ m : BitVec 5, encodeS m .rotl28 &&& Opcode.rotl28.mask = Opcode.rotl28.matchWord := by decide +kernel
  exact h _

theorem xor (wa wb : Width) : Statement (.xor wa wb) := by
  cases wa <;> cases wb <;> unfold Statement <;> decide +kernel

theorem sbox (box : Fin 8) : Statement (.sbox box) := by
  intro hw
  have h : ∀ b : BitVec 3, encodeT b .sbox &&& Opcode.sbox.mask = Opcode.sbox.matchWord := by decide +kernel
  exact h _

theorem feval : Statement .feval := by unfold Statement; decide +kernel

theorem hdist (wa wb : Width) : Statement (.hdist wa wb) := by
  cases wa <;> cases wb <;> unfold Statement <;> decide +kernel

theorem anClear : Statement .anClear := by unfold Statement; decide +kernel

theorem anBase : Statement .anBase := by unfold Statement; decide +kernel

theorem anAcc : Statement .anAcc := by unfold Statement; decide +kernel

end Sys2Proof.Laws.MaskMatch
end

