-- ==== Sys2Proof/Tests/Slice0.lean ====
section
/-! SUPPORT. The model's own tests, and a witness for the hypotheses of every statement. Expected values are from the vectors V<n> of
95_test_vectors.md, or from the rules named; no value is the model's own answer. -/

namespace Sys2Proof.Tests

open Sys2Proof.Machine Sys2Proof.Safety

-- One theorem after another: a hundred kernel evaluations at once would need a thread each.
set_option Elab.async false

/-! ## Small states -/

/-- An idle engine with every register 0 and the window at 0x40000000. -/
def blank : State where
  busy := false
  done := false
  baseValid := false
  bovr := false
  err := .none
  fstate := .initial
  tvalid := 0
  hdvalid := 0
  key := 0
  pt := 0
  opa := 0
  opb := 0
  res := 0
  ct := 0
  wkey := 0
  wpt := 0
  sk := Vector.replicate 16 0
  trace := Vector.replicate 16 0
  base := Vector.replicate 16 0
  hdLast := Vector.replicate 16 0
  acc := Vector.replicate 16 Acc.empty
  l := 0
  r := 0
  c := 0
  d := 0
  lcmd := 0
  stepPos := .idle
  baseAddr := 0x40000000
  agenda := []
  responses := []
  draws := 0

/-- The pair of V1, the source's key and plaintext. -/
def v1 : State := { blank with key := 0x133457799BBCDFF1, pt := 0x0123456789ABCDEF }

/-- `blank` with operands. -/
def ops (a b : Block) : State := { blank with opa := a, opb := b }

/-- `blank` with a word accepted. -/
def running (w : Word) : State := accept w blank

/-- An ENCRYPT (0x00000002) about to perform the round `r + 1`. -/
def inRound (r : Round) : State :=
  { running 0x00000002 with
    stepPos := .round r, tvalid := BitVec.ofNat 16 (2 ^ r.val - 1)
    fstate := if h : r.val = 0 then .initial else .round ⟨r.val - 1, by omega⟩ }

/-- An ENCRYPT about to perform FINAL. -/
def atFinal : State := { running 0x00000002 with stepPos := .last, tvalid := 0xFFFF, fstate := .round 15 }

/-- Accumulators with a full COUNT in the last round. -/
def fullLast : Vector Machine.Acc 16 := (Vector.replicate 16 Acc.empty).set 15 { sum := 0, count := 0xFFFFFFFF, min := 0, max := 0 }

/-- The state after the step that runs the word `w` at once. -/
def after (w : Word) (s : State) : Option State :=
  match step (s.withFetchWord 32 w.toNat) with
  | .next t => some t
  | _ => none

/-- RES and ERR after one word. -/
def resErr (w : Word) (s : State) : Option (Block × ErrCode) := (after w s).map fun t => (t.res, t.err)

/-! ## WellFormed -/

theorem test_wf_refuses_pos : (Instr.encrypt true .pt 128).wellFormed = false := by decide
theorem test_wf_accepts_pos : (Instr.encrypt true .key 127).wellFormed = true := by decide
theorem test_wf_refuses_amount : (Instr.rotl28 32).wellFormed = false := by decide
theorem test_wf_accepts_amount : (Instr.rotl28 31).wellFormed = true := by decide

/-! ## Decode: the words written out from the formats (30_encoding.md rules R112 to R121) -/

theorem test_decode_nop : decode 0b000000000000000000000000_00000000 = .ok .nop := by decide
theorem test_decode_ksched : decode 0b000000000000000000000000_00000001 = .ok .ksched := by decide
theorem test_decode_encrypt : decode 0b000000000_0111001_000000_1_1_00000010 = .ok (.encrypt true .key 57) := by decide
theorem test_decode_permute : decode 0b000000000000000000000_101_00010000 = .ok (.permute .pc2) := by decide
theorem test_decode_rotl28 : decode 0b0000000000000000000_11111_00010001 = .ok (.rotl28 31) := by decide
theorem test_decode_xor : decode 0b00000000000000000_011_0_000_00010010 = .ok (.xor .w64 .w32) := by decide
theorem test_decode_sbox : decode 0b000000000000000000000_111_00010011 = .ok (.sbox 7) := by decide
theorem test_decode_feval : decode 0b000000000000000000000000_00010100 = .ok .feval := by decide
theorem test_decode_hdist : decode 0b00000000000000000_001_0_101_00010101 = .ok (.hdist .w6 .w56) := by decide
theorem test_decode_anClear : decode 0b000000000000000000000000_00100000 = .ok .anClear := by decide
theorem test_decode_anBase : decode 0b000000000000000000000000_00100001 = .ok .anBase := by decide
theorem test_decode_anAcc : decode 0b000000000000000000000000_00100010 = .ok .anAcc := by decide

/-- V24: the words that complete with ILLEGAL_CMD, and the two of its priority clause. -/
theorem test_decode_illegal :
    ([0x00000003, 0x0000000F, 0x00000016, 0x00000023, 0x000000FF, 0x80000001, 0x00000121, 0x00002011, 0x00000813,
      0x00007715, 0x00000810, 0x00008012, 0x00007315, 0x00410502] : List Word).all
      (fun w => (decode w).toOption.isNone) = true := by decide +kernel

theorem test_decodeTableWord : decodeTableWord 32 0x00390302 = some (.encrypt true .key 57) := by decide

/-! ## Commands -/

/-- V16: NOP clears an earlier ERR and sets DONE. -/
theorem test_nop : (after 0x00000000 { blank with err := .outOfRange }).map (fun t => (t.err, t.done)) =
    some (.none, true) := by decide +kernel
/-- V2. -/
theorem test_ksched : (after 0x00000001 v1).map (fun t => (t.sk[0], t.sk[15])) =
    some (0x1B02EFFC7072, 0xCB3D8B0E17F5) := by decide +kernel
theorem test_ksched_halves : (after 0x00000001 v1).map (fun t => (t.c, t.d)) = some (0xF0CCAAF, 0x556678F) := by
  decide +kernel
/-- V1: L_0 and R_0. -/
theorem test_encrypt_initial : (after 0x00000002 v1).map (fun t => (t.l, t.r)) = some (0xCC00CCFF, 0xF0AAF0AA) := by
  decide +kernel
/-- V3: POS = 65. -/
theorem test_encrypt_out_of_range : (after 0x00410102 v1).map (fun t => (t.err, t.wpt)) = some (.outOfRange, 0) := by
  decide +kernel
/-- V10. -/
theorem test_permute_ip : resErr 0x00000010 (ops 0x0123456789ABCDEF 0) = some (0xCC00CCFFF0AAF0AA, .none) := by
  decide +kernel
/-- V18, round 1's lane values joined and permuted by P (V19). -/
theorem test_permute_p : resErr 0x00000310 (ops 0x5C82B597 0) = some (0x234AA9BB, .none) := by decide +kernel
/-- V13. -/
theorem test_rotl28 : resErr 0x00000111 (ops 0x0F0CCAAF 0) = some (0x0E19955F, .none) := by decide +kernel
theorem test_rotl28_modulo : resErr 0x00001D11 (ops 0x08000001 0) = resErr 0x00000111 (ops 0x08000001 0) := by
  decide +kernel
/-- V15. -/
theorem test_xor : resErr 0x00003312 (ops 0xCC00CCFF 0x234AA9BB) = some (0xEF4A6544, .none) := by decide +kernel
theorem test_xor_mismatch : resErr 0x00003012 (ops 1 2) = some (0, .lengthMismatch) := by decide +kernel
/-- V17: row 1, column 13 of S1. -/
theorem test_sbox : resErr 0x00000013 (ops 0x1B 0) = some (5, .none) := by decide +kernel
/-- R214 and R211: row 2, column 0 of S1. -/
theorem test_sbox_row_order : resErr 0x00000013 (ops 0x20 0) = some (4, .none) := by decide +kernel
/-- V19. -/
theorem test_feval : resErr 0x00000014 (ops 0xF0AAF0AA 0x1B02EFFC7072) = some (0x234AA9BB, .none) := by decide +kernel
/-- V28. -/
theorem test_hdist : resErr 0x00000015 (ops 0x85E813540F0AB405 0xAD9DFD6C35DE8DEC) = some (33, .none) := by
  decide +kernel
theorem test_hdist_narrow : resErr 0x00004415 (ops 0x0F0CCAAF 0x0E19955F) = some (14, .none) := by decide +kernel
/-- R282. -/
theorem test_anClear : (after 0x00000020 { blank with baseValid := true, hdvalid := 0xFFFF }).map
    (fun t => (t.baseValid, t.hdvalid, (t.acc[15]).min)) = some (false, 0, 127) := by decide +kernel
/-- R284 and R307. -/
theorem test_anBase : (after 0x00000021 { blank with tvalid := 0xFFFF }).map (fun t => (t.baseValid, t.err)) =
    some (true, .none) := by decide +kernel
theorem test_anBase_no_trace : (after 0x00000021 { blank with tvalid := 0x7FFF }).map (fun t => (t.baseValid, t.err)) =
    some (false, .noTrace) := by decide +kernel
/-- R286: the distance of 0 and 2^64-1 is 64, in every round. -/
theorem test_anAcc : (after 0x00000022 { blank with
      baseValid := true, tvalid := 0xFFFF, base := Vector.replicate 16 0xFFFFFFFFFFFFFFFF }).map
    (fun t => (t.acc[15], t.hdLast[0])) = some ({ sum := 64, count := 1, min := 64, max := 64 }, 64) := by decide +kernel
/-- R308 and R275: a full COUNT of an excluded round raises nothing. -/
theorem test_anAcc_excluded : (after 0x00000022 { blank with
      baseValid := true, tvalid := 0x7FFF, acc := fullLast }).map
    (fun t => t.err) = some .none := by decide +kernel

/-! ## The cipher -/

/-- V1. -/
theorem test_cipher : desEncrypt 0x133457799BBCDFF1 0x0123456789ABCDEF = 0x85E813540F0AB405 := by decide +kernel
/-- V5. -/
theorem test_cipher_known_answer : desEncrypt 0x0E329232EA6D0D73 0x8787878787878787 = 0 := by decide +kernel
/-- V23, its run `pt 1`: the trace of round 1. -/
theorem test_cipher_trace : desTrace 0x133457799BBCDFF1 0x8123456789ABCDEF 0 = 0xF1AAF0AAEB436450 := by decide +kernel

/-! ## The window and the host -/

/-- V35: the identification register. -/
theorem test_read_id : (hostRead 4 0x40000000 blank).responses = [.data 0x44455331] := by decide +kernel
/-- V16: STATUS with DONE and FSTATE = 17 set, ERR = 0 and BASE_VALID = 0. -/
theorem test_status_word : statusWord { blank with done := true, fstate := .final } = 0x00001102 := by decide +kernel
/-- R81: a write to CMD while busy sets BOVR and is otherwise ignored. -/
theorem test_write_busy : hostWrite 4 0x40000008 0x1 (running 0) =
    { running 0 with bovr := true, responses := [.done] } := by decide +kernel
/-- R72, R73. -/
theorem test_bus_errors : [hostRead 2 0x40000000 blank, hostRead 4 0x40000002 blank, hostRead 4 0x40000014 blank].map
    (fun t => t.responses) = [[.busError], [.busError], [.busError]] := by decide +kernel
/-- V8: separators, padding on the left, truncation to the last digits. -/
theorem test_hex : (hexToBits "0123 4567:89AB-CDEF".toList 64).toOption = some 0x0123456789ABCDEF ∧
    (hexToBits "0x12".toList 64).toOption = none ∧ (hexToBits " ".toList 64).toOption = none := by decide +kernel
/-- R128 and R129. -/
theorem test_assemble : assemble "ENCRYPT.KEY" [.num 57] = some 0x00390302 ∧ assemble "ROTL28" [.num 32] = none := by
  decide +kernel

/-! ## The sinks (40_bitvector.md rule R151) -/

/-- `blank` after a command of word `w` that completed with `e`. -/
def ended (w : Word) (e : ErrCode) : State := complete e (running w)

/-- R151: the Analysis Sink takes HD_LAST[16] of every run after its AN_ACC; R316: a failed run has none. -/
theorem test_analysisSink_finalDistances :
    (analysisSink (ended 0x00000021 .none)
        [{ ended 0x00000022 .none with hdLast := Vector.ofFn fun r => if r = 15 then 31 else 7 }, ended 0x00410102 .outOfRange]
        blank).map (fun a => a.finalDistances) = some [31] := by decide
/-- R316: a failed baseline leaves the Analysis Sink nothing; a failed run's trace goes to no sink. -/
theorem test_sinks_of_failed :
    analysisSink (ended 0x00000021 .noTrace) [] blank = none ∧
      traceSink ⟨1, true, .pt, 65, 0⟩ (ended 0x00410102 .outOfRange) = none ∧
      summarySink ⟨1, true, .pt, 65, 0⟩ (ended 0x00410102 .outOfRange) = none :=
  ⟨rfl, (sinks_of_failed (by decide)).1, (sinks_of_failed (by decide)).2.1⟩
/-- R151: of a run that succeeded the Summary Sink takes CT as 16 digits, V1's ciphertext here. -/
theorem test_summarySink :
    (summarySink ⟨1, true, .pt, 1, 0⟩ { ended 0x00010102 .none with ct := 0x85E813540F0AB405 }).map (fun r => r.ct) =
      some "85E813540F0AB405".toList := by decide +kernel

/-! ## Witnesses: concrete values that meet a statement's hypotheses together -/

theorem witness_DecodeOfEncodeIsTheCommand : (Instr.encrypt true .key 127).wellFormed = true := by decide
theorem witness_EncodeOfDecodeIsTheWord : decode 0x007F0302 = .ok (.encrypt true .key 127) := by decide
theorem witness_EveryWordSelectsOneCommandOrIsIllegal : (running 0x00000003).stepPos ≠ .idle := by decide
theorem witness_StepRunsTheDecodedCommand_empty :
    (running 0x00000014).stepPos ≠ .idle ∧ decode (running 0x00000014).lcmd = .ok .feval ∧
      (running 0x00000014).agenda = [] := by decide
theorem witness_StepRunsTheDecodedCommand_event :
    { running 0x00000014 with agenda := [.engine, .reset] }.stepPos ≠ .idle ∧
      decode { running 0x00000014 with agenda := [.engine, .reset] }.lcmd = .ok .feval ∧
      { running 0x00000014 with agenda := [.engine, .reset] }.agenda = [.engine, .reset] := by decide
theorem witness_AcceptedWordRunsNext : decode 0xFFFFFFFF = .error .reservedOpcode ∧ decode 0x00000022 = .ok .anAcc := by
  decide
theorem witness_IdleEngineWaitsForACommand :
    blank.stepPos = .idle ∧ blank.agenda = [] ∧ blank.busy = false ∧
      { blank with agenda := [.engine] }.stepPos = .idle ∧ { blank with agenda := [.engine] }.agenda = [.engine] := by decide
theorem witness_IdleEngineWaitsForACommand_write :
    { blank with agenda := [.write 4 0x40000008 0x00000001, .wait] }.busy = false ∧
      { blank with agenda := [.write 4 0x40000008 0x00000001, .wait] }.agenda =
        .write 4 (blank.baseAddr + 0x008) 0x00000001 :: [.wait] := by decide
theorem witness_OtherCommandsCompleteInOneStep : ∀ pen tgt pos, Instr.anAcc ≠ .encrypt pen tgt pos := by
  intro _ _ _ h
  cases h
theorem witness_WaitTerminates :
    ControlInv { running 0x00000002 with agenda := [.wait] } ∧ { running 0x00000002 with agenda := [.wait] }.agenda = [.wait] :=
  ⟨⟨by decide, by decide, .inl ⟨rfl, rfl⟩, by decide, by decide⟩, rfl⟩
theorem witness_UnequalWidthsRaiseLengthMismatch : Width.w64 ≠ .w56 := by decide
theorem witness_RoundFunctionDependsOnMixedInputOnly :
    permute tableE (0xFFFFFFFF : HalfBlock) ^^^ (0xFFFFFFFFFFFF : Subkey) = permute tableE (0 : HalfBlock) ^^^ (0 : Subkey) := by
  decide +kernel
theorem witness_ParityPositionsDoNotMatter_key :
    ∀ j, j < 64 → j % 8 ≠ 7 → (0x0101010101010101 : Block).getMsbD j = (0 : Block).getMsbD j := by decide +kernel
theorem witness_ParityPositionsDoNotMatter_flip : (1 ≤ 64 ∧ 64 ≤ 64 ∧ 64 % 8 = 0) ∧ 1 ≤ 8 ∧ 8 ≤ 64 ∧ 8 % 8 = 0 := by decide
theorem witness_EncryptInitialStep :
    (running 0x00010102).stepPos = .first ∧ (true = true → 1 ≤ 1 ∧ 1 ≤ 64) ∧ (true = true → 1 ≤ 64 ∧ 64 ≤ 64) ∧
      (false = true → 1 ≤ 127 ∧ 127 ≤ 64) := by decide
theorem witness_EncryptRoundStep : (inRound 0).stepPos = .round 0 ∧ (inRound 15).stepPos = .round 15 := by decide
theorem witness_EncryptFinalStep : atFinal.stepPos = .last := by decide
theorem witness_RejectedEncryptWritesNothing :
    (running 0x00000102).stepPos = .first ∧ ¬(1 ≤ 0 ∧ 0 ≤ 64) ∧ ¬(1 ≤ 65 ∧ 65 ≤ 64) ∧
      (running 0x00410502).stepPos = .first ∧ opField (running 0x00410502).lcmd = 0x02 ∧
      (running 0x00410502).lcmd &&& 0xFF80FC00 ≠ 0 := by decide
theorem witness_EncryptComputesTheCipher :
    Accepted (.encrypt true .key 64) (running 0x00400302) ∧ positionOk true 64 = true := by
  refine ⟨⟨?_, ?_, ?_, ?_⟩, ?_⟩ <;> decide
/-- Eighteen engine steps with a read and a write between them. -/
def mixedEvents : List Event := [.read 4 0x40000004] ++ List.replicate 17 .engine ++ [.write 4 0x40000020 5, .engine]
theorem witness_HostAccessesCannotDisturbEncrypt :
    { running 0x00000002 with agenda := mixedEvents }.agenda = mixedEvents ∧
      { running 0x00000002 with agenda := mixedEvents }.busy = true ∧
      { running 0x00000002 with agenda := mixedEvents }.stepPos = .first ∧
      decode { running 0x00000002 with agenda := mixedEvents }.lcmd = .ok (.encrypt false .pt 0) ∧
      positionOk false 0 = true ∧ (∀ e ∈ mixedEvents, e = .engine ∨ IsAccess e) ∧ mixedEvents.count .engine = 18 := by
  refine ⟨rfl, rfl, rfl, by decide, rfl, fun e he => ?_, by decide⟩
  simp [mixedEvents] at he
  rcases he with rfl | rfl | rfl | rfl
  · exact .inr (.inl ⟨_, _, rfl⟩)
  · exact .inl rfl
  · exact .inr (.inr ⟨_, _, _, rfl⟩)
  · exact .inl rfl
theorem witness_EncryptIsDeterministic :
    Accepted (.encrypt false .pt 0) (running 0x00000002) ∧
      Accepted (.encrypt false .pt 0) { running 0x00000002 with opa := 1, bovr := true } ∧ positionOk false 0 = true ∧
      (running 0x00000002).key = { running 0x00000002 with opa := 1, bovr := true }.key ∧
      (running 0x00000002).pt = { running 0x00000002 with opa := 1, bovr := true }.pt := by
  refine ⟨⟨?_, ?_, ?_, ?_⟩, ⟨?_, ?_, ?_, ?_⟩, ?_, ?_, ?_⟩ <;> decide
theorem witness_PerturbationFlipsExactlyOneBit_first :
    Accepted (.encrypt true .pt 1) (running 0x00010102) ∧ 1 ≤ 1 ∧ 1 ≤ 64 := by
  refine ⟨⟨?_, ?_, ?_, ?_⟩, ?_⟩ <;> decide
theorem witness_PerturbationFlipsExactlyOneBit_last :
    Accepted (.encrypt true .key 64) (running 0x00400302) ∧ 1 ≤ 64 ∧ 64 ≤ 64 := by
  refine ⟨⟨?_, ?_, ?_, ?_⟩, ?_⟩ <;> decide
theorem witness_AnBaseCopiesAWholeTrace :
    { blank with tvalid := 0xFFFF }.tvalid = 0xFFFF ∧ { blank with tvalid := 0x7FFF }.tvalid ≠ 0xFFFF := by decide
/-- A state with a baseline, data in every round but the last, and COUNT one below the greatest. -/
def almostFull : State :=
  { blank with baseValid := true, tvalid := 0x7FFF, acc := Vector.replicate 16 ⟨0, 0xFFFFFFFE, 0, 0⟩ }
theorem witness_AnAccAccumulatesEveryIncludedRound :
    almostFull.baseValid = true ∧
      (∀ r : Round, almostFull.tvalid.getLsbD r.val = true → almostFull.acc[r].count.toNat < 2 ^ 32 - 1) ∧
      almostFull.tvalid.getLsbD (0 : Round).val = true ∧ almostFull.tvalid.getLsbD (15 : Round).val = false := by
  decide +kernel
theorem witness_AccumulatorsHoldTheAggregates :
    (∀ x ∈ ([0, 64] : List Distance), x.toNat ≤ 64) ∧ ([0, 64] : List Distance).length < 2 ^ 32 ∧
      ([0, 64] : List Distance) ≠ [] ∧ List.Perm ([0, 64] : List Distance) [64, 0] := by decide
theorem witness_AnErrorWritesOnlyTheStatusFields_completed :
    (running 0x00000003).stepPos ≠ .idle ∧
      engineStep (running 0x00000003) = .next (finished .illegalCmd (running 0x00000003)) ∧
      (finished .illegalCmd (running 0x00000003)).stepPos = .idle ∧
      (finished .illegalCmd (running 0x00000003)).err ≠ .none ∧
      decode (running 0x00000003).lcmd = .error .reservedOpcode := by
  refine ⟨by decide, rfl, by decide, by decide, by decide⟩
theorem witness_AnErrorWritesOnlyTheStatusFields_range :
    (running 0x00410102).stepPos ≠ .idle ∧ decode (running 0x00410102).lcmd = .ok (.encrypt true .pt 65) ∧
      (running 0x00410102).stepPos = .first ∧ ¬(1 ≤ 65 ∧ 65 ≤ 64) := by decide
theorem witness_AnErrorWritesOnlyTheStatusFields_widths :
    (running 0x00003012).stepPos ≠ .idle ∧ decode (running 0x00003012).lcmd = .ok (.xor .w64 .w32) ∧
      decode (running 0x00003015).lcmd = .ok (.hdist .w64 .w32) ∧ Width.w64 ≠ .w32 := by decide
theorem witness_AnErrorWritesOnlyTheStatusFields_analyzer :
    (running 0x00000021).stepPos ≠ .idle ∧ decode (running 0x00000021).lcmd = .ok .anBase ∧
      (running 0x00000021).tvalid ≠ 0xFFFF ∧
      (running 0x00000022).stepPos ≠ .idle ∧ decode (running 0x00000022).lcmd = .ok .anAcc ∧
      (running 0x00000022).baseValid = false := by decide
/-- A state with a baseline and a full COUNT in the last round. -/
def full : State :=
  { running 0x00000022 with
    baseValid := true, tvalid := 0xFFFF, acc := fullLast }
theorem witness_AnErrorWritesOnlyTheStatusFields_full :
    full.stepPos ≠ .idle ∧ decode full.lcmd = .ok .anAcc ∧ full.baseValid = true ∧
      ∃ r : Round, full.tvalid.getLsbD r.val = true ∧ full.acc[r].count = 0xFFFFFFFF := by
  exact ⟨by decide, by decide, by decide, 15, by decide +kernel⟩
theorem witness_ErrorsHaveExactlyTheirCauses :
    full.stepPos = .first ∧ exec .anAcc full = .next (complete .accOverflow full) ∧
      (complete .accOverflow full).stepPos = .idle := by
  refine ⟨by decide, ?_, by decide⟩
  have h : accFull full = true := by decide +kernel
  have hb : full.baseValid = true := rfl
  simp [exec, execAnAcc, h, hb]
theorem witness_CommandsWriteOnlyTheirWriteSet :
    exec .nop blank = .next (succeed blank) ∧ Reg.res .hi ≠ .status ∧ inWriteSet .nop blank (.res .hi) = false := by
  refine ⟨rfl, by decide, by decide⟩
theorem witness_CommandsLeaveTheHostsRegistersAlone : exec .ksched blank = .next (succeed (loadSchedule 0 blank)) := rfl
theorem witness_OnlyEncryptMovesTheController :
    step (running 0x00000000) = .next (complete .none (running 0x00000000)) ∧ eventOf (running 0x00000000) ≠ .reset ∧
      ¬ ∃ pen tgt pos, decode (running 0x00000000).lcmd = .ok (.encrypt pen tgt pos) ∧
        eventOf (running 0x00000000) = .engine ∧ (running 0x00000000).stepPos ≠ .idle ∧
        ((running 0x00000000).stepPos = .first → positionOk pen pos = true) := by
  refine ⟨rfl, by decide, ?_⟩
  rintro ⟨_, _, _, h, -⟩
  have h' : decode (running 0x00000000).lcmd = .ok .nop := by decide
  rw [h'] at h
  cases h
/-- A running KSCHED with a host write to KEY as its next event. -/
def writeWhileBusy : State := { running 0x00000001 with agenda := [.write 4 0x40000020 5] }
theorem witness_OperandsHoldWhileBusy :
    writeWhileBusy.busy = true ∧ eventOf writeWhileBusy ≠ .reset ∧
      step writeWhileBusy = .next { running 0x00000001 with bovr := true, responses := [.done] } :=
  ⟨by decide, by decide, rfl⟩
theorem witness_OverrunFlagIsSticky_busy :
    (running 0x00000000).busy = true ∧ Reg.cmd ≠ .status ∧ (0x8 : Word).getLsbD 3 = true := by decide
theorem witness_OverrunFlagIsSticky_kept :
    { running 0x00000000 with bovr := true }.bovr = true ∧
      step { running 0x00000000 with bovr := true } = .next (complete .none { running 0x00000000 with bovr := true }) ∧
      eventOf { running 0x00000000 with bovr := true } ≠ .reset ∧
      (∀ v : Word, eventOf { running 0x00000000 with bovr := true } =
        .write 4 ({ running 0x00000000 with bovr := true }.baseAddr + 0x004) v → v.getLsbD 3 = false) ∧
      exec .nop (running 0x00000000) = .next (complete .none (running 0x00000000)) := by
  refine ⟨rfl, rfl, by decide, fun v h => ?_, rfl⟩
  cases h
/-- V35: only bit 3 of a STATUS write acts. -/
theorem witness_OverrunFlagIsSticky_ignored : (0xFFFFFFF7 : Word).getLsbD 3 = false ∧ (0xFFFFFFFF : Word).getLsbD 3 = true := by
  decide
theorem witness_ErrChangesOnlyAtCompletion :
    step (running 0x00000003) = .next (complete .illegalCmd (running 0x00000003)) ∧
      (complete .illegalCmd (running 0x00000003)).err ≠ (running 0x00000003).err := by
  refine ⟨rfl, by decide⟩
theorem witness_EveryStepKeepsControlInv :
    ControlInv (inRound 0) ∧ step (inRound 0) = .next (encryptRound 0 (inRound 0)) :=
  ⟨⟨by decide, by decide, ⟨⟨false, .pt, 0, by decide, rfl⟩, rfl, rfl⟩, by decide, by decide⟩, rfl⟩
theorem witness_EveryStepKeepsCipherInv :
    ControlInv (running 0x00000002) ∧ CipherInv (running 0x00000002) ∧
      step (running 0x00000002) = .next (encryptInitial false .pt 0 (running 0x00000002)) := by
  refine ⟨⟨by decide, by decide, .inl ⟨rfl, rfl⟩, by decide, by decide⟩, ?_, rfl⟩
  intro h
  cases h
theorem witness_EveryStepKeepsAnalyzerInv :
    AnalyzerInv (running 0x00000020) ∧
      step (running 0x00000020) = .next (succeed { running 0x00000020 with
        acc := Vector.replicate 16 Acc.empty, hdvalid := 0, baseValid := false }) := by
  refine ⟨fun r => ?_, rfl⟩
  have h : (running 0x00000020).acc[r] = Acc.empty := by simp [running, blank]
  rw [h]
  exact ⟨⟨fun _ => rfl, fun h => absurd rfl h⟩, by simp [running, blank]⟩
theorem witness_RegisterMapIsOneToOne : (Reg.trace 0 .hi).offset = 0x200 ∧ (Reg.minmax 15).offset = 0x4FC := by decide
theorem witness_UnmappedOffsetsAreBusErrors :
    (0x014 % 4 = 0 ∧ 0x014 < 0x1000 ∧ ¬ ∃ g : Reg, g.offset = 0x014) ∧
      0xFFC % 4 = 0 ∧ 0xFFC < 0x1000 ∧ ¬ ∃ g : Reg, g.offset = 0xFFC := by
  refine ⟨⟨by decide, by decide, ?_⟩, by decide, by decide, ?_⟩ <;> rw [← ofOffset_eq_none] <;> decide +kernel
theorem witness_BusErrorChangesNoEngineState :
    (2 ≠ 4 ∨ 0 % 4 ≠ 0 ∨ ¬ ∃ g : Reg, g.offset = 0) ∧ (4 ≠ 4 ∨ 0xFFF % 4 ≠ 0 ∨ ¬ ∃ g : Reg, g.offset = 0xFFF) ∧
      0xFFF < 0x1000 ∧ (4 ≠ 4 ∨ 0x500 % 4 ≠ 0 ∨ ¬ ∃ g : Reg, g.offset = 0x500) := by
  refine ⟨.inl (by decide), .inr (.inl (by decide)), by decide, .inr (.inr ?_)⟩
  rw [← ofOffset_eq_none]
  decide +kernel
theorem witness_IdleReadReturnsTheRegister : blank.busy = false := rfl
theorem witness_StatusReadWhileBusy :
    (running 0x00000001).busy = true ∧
      readWord .status (running 0x00000001) = (statusWord (running 0x00000001), running 0x00000001) ∧
      (¬ ∃ pen tgt pos, decode (running 0x00000001).lcmd = .ok (.encrypt pen tgt pos)) ∧
      decode (running 0x00000001).lcmd ≠ .ok .anClear ∧ decode (running 0x00000001).lcmd ≠ .ok .anBase := by
  have h : decode (running 0x00000001).lcmd = .ok .ksched := by decide
  refine ⟨rfl, rfl, ?_, by rw [h]; decide, by rw [h]; decide⟩
  rintro ⟨_, _, _, h'⟩
  rw [h] at h'
  cases h'
theorem witness_StatusReadWhileBusy_encrypt :
    (running 0x00000002).busy = true ∧
      readWord .status (running 0x00000002) =
        (packStatus true false false false .none (CtrlState.ofNumber (Config.freeValue 0).toNat),
          { running 0x00000002 with draws := 1 }) ∧
      decode (running 0x00000002).lcmd ≠ .ok .anClear ∧ decode (running 0x00000002).lcmd ≠ .ok .anBase := by
  have h : decode (running 0x00000002).lcmd = .ok (.encrypt false .pt 0) := by decide
  exact ⟨rfl, rfl, by rw [h]; decide, by rw [h]; decide⟩
/-- The word R258 calls an ENCRYPT that raises ILLEGAL_CMD: log entry 9. -/
theorem witness_StatusReadWhileBusy_rejected :
    (running 0x00000402).busy = true ∧ decode (running 0x00000402).lcmd = .error .reservedBit ∧
      readWord .status (running 0x00000402) = (statusWord (running 0x00000402), running 0x00000402) :=
  ⟨rfl, by decide, rfl⟩
theorem witness_ReadWhileBusy :
    (running 0x00000001).busy = true ∧ decode (running 0x00000001).lcmd = .ok .ksched ∧
      (Reg.key .lo ≠ .status ∧ Reg.key .lo ≠ .cmd ∧ inWriteSet .ksched (running 0x00000001) (.key .lo) = false) ∧
      Reg.sk 15 .lo ≠ .status ∧ Reg.sk 15 .lo ≠ .cmd ∧ inWriteSet .ksched (running 0x00000001) (.sk 15 .lo) = true := by
  decide
theorem witness_ReadWhileBusy_rejected :
    (running 0x00000402).busy = true ∧ decode (running 0x00000402).lcmd = .error .reservedBit ∧
      Reg.ct .hi ≠ .status ∧ Reg.ct .hi ≠ .cmd := by decide
/-- An AN_ACC right after reset has no round with data (R271): an excluded round's COUNT reads exactly, log entry 9. -/
theorem witness_ReadWhileBusy_excluded :
    (running 0x00000022).busy = true ∧ decode (running 0x00000022).lcmd = .ok .anAcc ∧
      inWriteSet .anAcc (running 0x00000022) (.count 0) = false ∧
      inWriteSet .anAcc (running 0x00000022) (.hdLast 0) = true := by decide
theorem witness_WriteThenReadGivesTheWord :
    blank.busy = false ∧ (∃ h, Reg.opb .lo = .key h ∨ Reg.opb .lo = .pt h ∨ Reg.opb .lo = .opa h ∨ Reg.opb .lo = .opb h) ∧
      Reg.opb .hi ≠ Reg.opb .lo := by
  exact ⟨rfl, ⟨.lo, by simp⟩, by decide⟩
/-- R77: the source's baseline key is written as KEY_HI = 0x13345779 and KEY_LO = 0x9BBCDFF1. -/
theorem test_key_halves :
    memWrite 4 0x020 0x13345779 { blank with key := 0x9BBCDFF1 } = .ok { blank with key := 0x133457799BBCDFF1 } ∧
      memWrite 4 0x024 0x9BBCDFF1 { blank with key := 0x1334577900000000 } = .ok { blank with key := 0x133457799BBCDFF1 } ∧
      memRead 4 0x020 v1 = .ok (0x13345779, v1) ∧ memRead 4 0x024 v1 = .ok (0x9BBCDFF1, v1) := by
  decide
theorem witness_ReadOnlyRegistersIgnoreWrites :
    Reg.id ≠ .status ∧ Reg.id ≠ .cmd ∧ (∀ h, Reg.id ≠ .key h ∧ Reg.id ≠ .pt h ∧ Reg.id ≠ .opa h ∧ Reg.id ≠ .opb h) ∧
      blank.busy = false ∧ (running 0x00000000).busy = true := by
  refine ⟨by decide, by decide, fun h => ⟨?_, ?_, ?_, ?_⟩, rfl, rfl⟩ <;> simp
theorem witness_HostAccessesReachTheirWord :
    { blank with agenda := [.read 4 0x40000004] }.agenda = .read 4 0x40000004 :: [] ∧
      { blank with agenda := [.write 8 0 7, .engine] }.agenda = .write 8 0 7 :: [.engine] := by decide
theorem witness_ResetGivesTheControlStateOfR56 :
    eventOf { inRound 3 with agenda := [.reset] } = .reset ∧
      step { inRound 3 with agenda := [.reset] } = .next (State.resetFrom 0 0x40000000 [] []) :=
  ⟨rfl, rfl⟩
theorem witness_HexTextRoundTrip : (0 < 64 ∧ 64 % 4 = 0) ∧ 0 < 4 ∧ 4 % 4 = 0 := by decide

end Sys2Proof.Tests
end

/-! The register state: what a step leaves unchanged, the control invariant, the write sets, the flags, and reads
(10_state.md). -/

namespace Sys2Proof.Proofs

open Sys2Proof.Machine Sys2Proof.Safety

variable {s t : State} {i : Instr} {g : Reg}

/-! ## What a step leaves unchanged -/

/-- A step of the system that is neither the engine's nor a reset changes at most the acceptance fields, BOVR, the host's registers
and the model's own fields. -/
theorem hostStep_frame (h : step s = .next t) (he : eventOf s ≠ .engine) (hr : eventOf s ≠ .reset) :
    t = { s with
      busy := t.busy, done := t.done, bovr := t.bovr, key := t.key, pt := t.pt, opa := t.opa, opb := t.opb, lcmd := t.lcmd,
      stepPos := t.stepPos, agenda := t.agenda, responses := t.responses, draws := t.draws } := by
  obtain ⟨u, hu, ht⟩ | ⟨hreset, -⟩ := hostStep_cases h he
  · rcases hu with rfl | hu | ⟨-, v, rfl⟩ | ⟨-, hu⟩
    · rw [ht]
    · rw [ht, hu]
    · rw [ht]; rfl
    · rw [ht, hu]
  · exact absurd hreset hr

/-- A step whose event is a reset leaves the reset state. -/
theorem step_of_reset (h : step s = .next t) (he : eventOf s = .reset) :
    t = State.resetFrom s.draws s.baseAddr s.agenda.tail s.responses := by
  rcases step_cases h with ⟨h', -⟩ | ⟨_, _, h', -⟩ | ⟨_, _, _, h', -⟩ | ⟨h', -⟩ | ⟨_, h', -⟩ | ⟨-, h'⟩
  on_goal 6 => exact h'
  all_goals rw [he] at h'; cases h'

/-- Settles O41, by the cases of a command's step. -/
theorem commandsLeaveTheHostsRegistersAlone : Obligations.CommandsLeaveTheHostsRegistersAlone := by
  intro i s t h
  rcases exec_cases h with ⟨-, e, rfl⟩ | ⟨-, -, v, rfl⟩ | ⟨-, rfl⟩ | ⟨-, rfl⟩ | ⟨-, -, rfl⟩ | ⟨-, -, -, rfl⟩ |
    ⟨pen, tgt, pos, -, ⟨-, rfl⟩ | ⟨-, -, rfl⟩ | ⟨r, -, rfl⟩ | ⟨-, rfl⟩⟩
  all_goals simp

/-! ## The control invariant -/

/-- The control invariant speaks of neither BOVR nor the host's registers nor the model's own fields. -/
theorem controlInv_of_frame (h : ControlInv s)
    (ht : t = { s with
      bovr := t.bovr, key := t.key, pt := t.pt, opa := t.opa, opb := t.opb, agenda := t.agenda, responses := t.responses,
      draws := t.draws }) : ControlInv t := by
  rw [ht]
  exact ⟨h.busy_iff, h.done_clear, h.phase, h.baseline, h.aligned⟩

/-- An idle engine is between encryptions. -/
theorem betweenRuns_of_idle (h : ControlInv s) (hp : s.stepPos = .idle) : BetweenRuns s := by
  simpa [PhaseOk, hp] using h.phase

/-- A command before its first step stands between encryptions. -/
theorem betweenRuns_of_first (h : ControlInv s) (hp : s.stepPos = .first) : BetweenRuns s := by
  simpa [PhaseOk, hp] using h.phase

/-- Only an ENCRYPT that has passed its checks is past its first step. -/
theorem first_or_runsEncrypt (h : ControlInv s) (hp : s.stepPos ≠ .idle) : s.stepPos = .first ∨ RunsEncrypt s := by
  have hphase := h.phase
  unfold PhaseOk at hphase
  cases hs : s.stepPos with
  | idle => exact absurd hs hp
  | first => exact .inl rfl
  | round r => simp only [hs] at hphase; exact .inr hphase.1
  | last => simp only [hs] at hphase; exact .inr hphase.1

/-- A running command that is no ENCRYPT past its first step stands between encryptions, and a baseline there comes with a whole
trace. -/
theorem between_of_atFirst (h : ControlInv s) (hd : decode s.lcmd = .ok i) (hp : s.stepPos ≠ .idle) (ha : AtFirst i s) :
    BetweenRuns s ∧ (s.baseValid = true → s.tvalid = allRounds) := by
  have hfirst : s.stepPos = .first := by
    obtain hf | ⟨pen, tgt, pos, hd', -⟩ := first_or_runsEncrypt h hp
    · exact hf
    · exact ha pen tgt pos (by simpa [hd] using hd')
  exact ⟨betweenRuns_of_first h hfirst, fun hv => h.baseline hv (.inr hfirst)⟩

/-- An acceptance by an idle engine keeps the control state legal. -/
theorem controlInv_accept (h : ControlInv s) (hb : s.busy = false) (w : Word) : ControlInv (accept w s) := by
  have hp : s.stepPos = .idle := by
    by_contra hne
    simp [h.busy_iff.mpr hne] at hb
  have hbetween := betweenRuns_of_idle h hp
  exact {
    busy_iff := by simp
    done_clear := fun _ => rfl
    phase := hbetween
    baseline := fun hv _ => h.baseline hv (.inl hp)
    aligned := h.aligned }

/-- A completion between encryptions leaves a legal control state, if a baseline there is comes with a whole trace. -/
theorem controlInv_complete (e : ErrCode) (hp : BetweenRuns s) (hv : s.baseValid = true → s.tvalid = allRounds)
    (ha : s.baseAddr % 4096 = 0) : ControlInv (complete e s) where
  busy_iff := by simp
  done_clear hb := by simp at hb
  phase := hp
  baseline hb _ := hv hb
  aligned := ha

/-- A step of an ENCRYPT that does not complete keeps BUSY and DONE, and the masks are those of its next step. -/
theorem controlInv_running (h : ControlInv s) (hs : s.stepPos ≠ .idle) (hbusy : t.busy = s.busy) (hdone : t.done = s.done)
    (haddr : t.baseAddr = s.baseAddr) (ht : (∃ r, t.stepPos = .round r) ∨ t.stepPos = .last) (hphase : PhaseOk t) :
    ControlInv t where
  busy_iff := by rcases ht with ⟨r, ht⟩ | ht <;> simp [hbusy, h.busy_iff, hs, ht]
  done_clear hb := hdone.trans (h.done_clear (hbusy ▸ hb))
  phase := hphase
  baseline _ hp := by rcases ht with ⟨r, ht⟩ | ht <;> simp [ht] at hp
  aligned := haddr ▸ h.aligned

/-- The INITIAL step leads to a legal state. -/
theorem controlInv_encryptInitial {pen : Bool} {tgt : Target} {pos : Nat} (h : ControlInv s) (hp : s.stepPos = .first)
    (hd : decode s.lcmd = .ok (.encrypt pen tgt pos)) (hok : positionOk pen pos = true) :
    ControlInv (encryptInitial pen tgt pos s) := by
  refine controlInv_running h (by simp [hp]) rfl rfl rfl (.inl ⟨0, rfl⟩) ?_
  exact ⟨⟨pen, tgt, pos, hd, hok⟩, rfl, rfl⟩

/-- A ROUND step leads to a legal state. -/
theorem controlInv_encryptRound {r : Round} (h : ControlInv s) (hp : s.stepPos = .round r) : ControlInv (encryptRound r s) := by
  have hphase := h.phase
  simp only [PhaseOk, hp] at hphase
  obtain ⟨hruns, htv, -⟩ := hphase
  have hmask : (encryptRound r s).tvalid = BitVec.ofNat 16 (2 ^ (r.val + 1) - 1) := by
    rw [encryptRound_tvalid, htv, setRoundBit_prefix]
  by_cases hr : r.val + 1 < 16
  · have hnext : (encryptRound r s).stepPos = .round ⟨r.val + 1, hr⟩ := by simp [StepPos.next, hr]
    refine controlInv_running h (by simp [hp]) rfl rfl rfl (.inl ⟨_, hnext⟩) ?_
    simp only [PhaseOk, hnext]
    exact ⟨hruns, hmask, by simp⟩
  · have hnext : (encryptRound r s).stepPos = .last := by simp [StepPos.next, hr]
    have hlast : r = 15 := Fin.ext (by simp; omega)
    refine controlInv_running h (by simp [hp]) rfl rfl rfl (.inr hnext) ?_
    simp only [PhaseOk, hnext]
    exact ⟨hruns, by rw [hmask, hlast]; rfl, by simp [hlast]⟩

/-- The FINAL step leads to a legal state. -/
theorem controlInv_encryptFinal (h : ControlInv s) (hp : s.stepPos = .last) : ControlInv (encryptFinal s) := by
  have hphase := h.phase
  simp only [PhaseOk, hp] at hphase
  obtain ⟨-, htv, -⟩ := hphase
  exact controlInv_complete .none (.inr ⟨rfl, htv⟩) (fun _ => htv) h.aligned

/-- A command's step keeps the control state legal. -/
theorem exec_keeps_controlInv (h : ControlInv s) (hd : decode s.lcmd = .ok i) (hp : s.stepPos ≠ .idle)
    (hx : exec i s = .next t) : ControlInv t := by
  rcases exec_cases hx with ⟨ha, e, rfl⟩ | ⟨ha, -, v, rfl⟩ | ⟨rfl, rfl⟩ | ⟨rfl, rfl⟩ | ⟨rfl, htv, rfl⟩ | ⟨rfl, -, -, rfl⟩ |
    ⟨pen, tgt, pos, rfl, ⟨hs, -⟩ | ⟨hs, hok, rfl⟩ | ⟨r, hs, rfl⟩ | ⟨hs, rfl⟩⟩
  · obtain ⟨hbr, hv⟩ := between_of_atFirst h hd hp ha
    exact controlInv_complete e hbr hv h.aligned
  · obtain ⟨hbr, hv⟩ := between_of_atFirst h hd hp ha
    exact controlInv_complete .none hbr hv h.aligned
  · obtain ⟨hbr, hv⟩ := between_of_atFirst h hd hp (by simp [AtFirst])
    exact controlInv_complete .none hbr hv h.aligned
  · obtain ⟨hbr, -⟩ := between_of_atFirst h hd hp (by simp [AtFirst])
    exact controlInv_complete .none hbr (by simp) h.aligned
  · obtain ⟨hbr, -⟩ := between_of_atFirst h hd hp (by simp [AtFirst])
    exact controlInv_complete .none hbr (fun _ => htv) h.aligned
  · obtain ⟨hbr, hv⟩ := between_of_atFirst h hd hp (by simp [AtFirst])
    exact controlInv_complete .none hbr hv h.aligned
  · exact absurd hs hp
  · exact controlInv_encryptInitial h hs hd hok
  · exact controlInv_encryptRound h hs
  · exact controlInv_encryptFinal h hs

/-- An engine step keeps the control state legal. -/
theorem engineStep_keeps_controlInv (h : ControlInv s) (hx : engineStep s = .next t) : ControlInv t := by
  rcases engineStep_cases hx with ⟨-, rfl⟩ | ⟨hp, ⟨r, hd⟩, rfl⟩ | ⟨hp, i, hd, hx⟩
  · exact h
  · obtain hf | ⟨_, _, _, hd', -⟩ := first_or_runsEncrypt h hp
    · exact controlInv_complete .illegalCmd (betweenRuns_of_first h hf) (fun hv => h.baseline hv (.inr hf)) h.aligned
    · simp [hd] at hd'
  · exact exec_keeps_controlInv h hd hp hx

/-- A reset leaves a legal control state, whatever it draws, where the window is aligned. -/
theorem controlInv_resetFrom (n : Nat) {baseAddr : Nat} (agenda : List Event) (responses : List Response)
    (ha : baseAddr % 4096 = 0) : ControlInv (State.resetFrom n baseAddr agenda responses) where
  busy_iff := by simp [State.resetFrom]
  done_clear _ := rfl
  phase := .inl ⟨rfl, rfl⟩
  baseline hv := by cases hv
  aligned := ha

/-- A step that is not the engine's keeps the control state legal. -/
theorem hostStep_keeps_controlInv (h : ControlInv s) (hx : step s = .next t) (he : eventOf s ≠ .engine) : ControlInv t := by
  obtain ⟨u, hu, ht⟩ | ⟨hr, -⟩ := hostStep_cases hx he
  · have hinv : ControlInv u := by
      rcases hu with rfl | hu | ⟨hb, w, rfl⟩ | ⟨-, hu⟩
      · exact h
      · exact controlInv_of_frame h (by rw [hu])
      · exact controlInv_accept h hb w
      · exact controlInv_of_frame h (by rw [hu])
    exact controlInv_of_frame hinv (by rw [ht])
  · exact step_of_reset hx hr ▸ controlInv_resetFrom _ _ _ h.aligned

/-- Settles O46: the engine's steps, the host's and a reset each keep the invariant. -/
theorem everyStepKeepsControlInv : Obligations.EveryStepKeepsControlInv := by
  intro s t h hx
  by_cases he : eventOf s = .engine
  · have h' : ControlInv { s with agenda := s.agenda.tail } := controlInv_of_frame h rfl
    exact engineStep_keeps_controlInv h' (engineStep_of_step hx he)
  · exact hostStep_keeps_controlInv h hx he

/-- Settles O49: the power-on reset is one of an aligned window. -/
theorem resetMeetsTheInvariants : Obligations.ResetMeetsTheInvariants := by
  refine ⟨controlInv_resetFrom 0 [] [] (by simp [Config.baseAddr]), ?_, fun r => ⟨?_, fun h => ?_⟩⟩
  · intro h
    cases h
  · have hacc : State.reset.acc[r] = Acc.empty := by simp [State.reset, State.resetFrom]
    rw [hacc]
    exact ⟨fun _ => rfl, fun h => absurd rfl h⟩
  · simp [State.reset, State.resetFrom] at h

/-- Settles O59, for the state a reset leaves, whatever it draws. -/
theorem resetGivesTheControlStateOfR56 : Obligations.ResetGivesTheControlStateOfR56 := by
  intro s t he h
  rw [step_of_reset h he]
  refine ⟨rfl, rfl, rfl, rfl, rfl, rfl, rfl, rfl, rfl, fun r => ?_, rfl, rfl⟩
  simp [State.resetFrom, Acc.empty]

/-- Settles O6: the engine event that the acceptance put first decodes the word it latched. -/
theorem acceptedWordRunsNext : Obligations.AcceptedWordRunsNext := by
  intro s w i hd
  have hw : BitVec.ofNat 32 (w.toNat % 2 ^ 32) = w := by
    rw [Nat.mod_eq_of_lt w.isLt, BitVec.ofNat_toNat, BitVec.setWidth_eq]
  have hstep : step (latchCommand w s) = engineStep (accept w s) := rfl
  rw [State.withFetchWord, hw, hstep, engineStep, if_neg (by simp), accept_lcmd, hd]
  rfl

/-! ## The write sets -/

/-- A completion writes STATUS alone. -/
theorem readReg_complete (hg : g ≠ .status) (e : ErrCode) (s : State) : readReg g (complete e s) = readReg g s := by
  cases g with
  | status => exact absurd rfl hg
  | _ => rfl

/-- A result is written to RES alone. -/
theorem readReg_res (hg : ∀ a, g ≠ .res a) (v : Block) (s : State) : readReg g { s with res := v } = readReg g s := by
  cases g with
  | res a => exact absurd rfl (hg a)
  | _ => rfl

/-- The schedule of a key is written to the subkeys alone. -/
theorem readReg_loadSchedule (hg : inWriteSet .ksched s g = false) (key : Block) :
    readReg g (loadSchedule key s) = readReg g s := by
  cases g with
  | sk r a => cases hg
  | _ => rfl

/-- AN_CLEAR writes the accumulators and HDVALID alone, STATUS aside. -/
theorem readReg_anClear (hs : g ≠ .status) (hg : inWriteSet .anClear s g = false) :
    readReg g { s with acc := Vector.replicate 16 Acc.empty, hdvalid := 0, baseValid := false } = readReg g s := by
  cases g with
  | status => exact absurd rfl hs
  | hdvalid | sum | count | minmax => cases hg
  | _ => rfl

/-- AN_BASE writes the baseline alone, STATUS aside. -/
theorem readReg_anBase (hs : g ≠ .status) (hg : inWriteSet .anBase s g = false) :
    readReg g { s with base := s.trace, baseValid := true } = readReg g s := by
  cases g with
  | status => exact absurd rfl hs
  | base => cases hg
  | _ => rfl

/-- AN_ACC writes HDVALID, HD_LAST and the accumulators of the rounds with data alone. -/
theorem readReg_accumulate (hg : inWriteSet .anAcc s g = false) : readReg g (accumulate s) = readReg g s := by
  cases g with
  | hdvalid | hdLast => cases hg
  | sum r a | count r | minmax r => simp only [readReg, accumulate_acc_excluded (r := r) hg]
  | _ => rfl

/-- The INITIAL step writes WKEY, WPT, the subkeys and TVALID alone, STATUS aside. -/
theorem readReg_encryptInitial {pen : Bool} {tgt : Target} {pos : Nat} (hs : g ≠ .status)
    (hg : inWriteSet (.encrypt pen tgt pos) s g = false) :
    readReg g (encryptInitial pen tgt pos s) = readReg g s := by
  cases g with
  | status => exact absurd rfl hs
  | wkey | wpt | sk | tvalid => cases hg
  | _ => rfl

/-- A ROUND step writes the trace and TVALID alone, STATUS aside. -/
theorem readReg_encryptRound {pen : Bool} {tgt : Target} {pos : Nat} (hs : g ≠ .status)
    (hg : inWriteSet (.encrypt pen tgt pos) s g = false) (r : Round) :
    readReg g (encryptRound r s) = readReg g s := by
  cases g with
  | status => exact absurd rfl hs
  | trace | tvalid => cases hg
  | _ => rfl

/-- The FINAL step writes CT alone, STATUS aside. -/
theorem readReg_encryptFinal {pen : Bool} {tgt : Target} {pos : Nat} (hs : g ≠ .status)
    (hg : inWriteSet (.encrypt pen tgt pos) s g = false) : readReg g (encryptFinal s) = readReg g s := by
  cases g with
  | status => exact absurd rfl hs
  | ct => cases hg
  | _ => rfl

/-- Settles O40: each effect of a command's step writes its write set alone. -/
theorem commandsWriteOnlyTheirWriteSet : Obligations.CommandsWriteOnlyTheirWriteSet := by
  intro i s t h g hs hg
  rcases exec_cases h with ⟨-, e, rfl⟩ | ⟨-, hres, v, rfl⟩ | ⟨rfl, rfl⟩ | ⟨rfl, rfl⟩ | ⟨rfl, -, rfl⟩ | ⟨rfl, -, -, rfl⟩ |
    ⟨pen, tgt, pos, rfl, ⟨-, rfl⟩ | ⟨-, -, rfl⟩ | ⟨r, -, rfl⟩ | ⟨-, rfl⟩⟩
  · exact readReg_complete hs e s
  · have hne (a : Half) : g ≠ .res a := fun hga => by simp [(hres g).mpr ⟨a, hga⟩] at hg
    rw [readReg_complete hs, readReg_res hne]
  · rw [readReg_complete hs, readReg_loadSchedule hg]
  · rw [readReg_complete hs, readReg_anClear hs hg]
  · rw [readReg_complete hs, readReg_anBase hs hg]
  · rw [readReg_complete hs, readReg_accumulate hg]
  · rfl
  · exact readReg_encryptInitial hs hg
  · exact readReg_encryptRound hs hg r
  · exact readReg_encryptFinal hs hg

/-! ## The controller's registers, ERR and BOVR -/

/-- The controller's state, its trace, and the registers that an encryption alone writes. -/
def SameController (s t : State) : Prop :=
  t.fstate = s.fstate ∧ t.trace = s.trace ∧ t.tvalid = s.tvalid ∧ t.ct = s.ct ∧ t.wkey = s.wkey ∧ t.wpt = s.wpt

/-- A command's step keeps the controller's registers, if it is no step of an ENCRYPT that passes its checks. -/
theorem exec_sameController (h : exec i s = .next t)
    (hne : ∀ pen tgt pos, i = .encrypt pen tgt pos → s.stepPos ≠ .idle → ¬(s.stepPos = .first → positionOk pen pos = true)) :
    SameController s t := by
  rcases exec_cases h with ⟨-, e, rfl⟩ | ⟨-, -, v, rfl⟩ | ⟨-, rfl⟩ | ⟨-, rfl⟩ | ⟨-, -, rfl⟩ | ⟨-, -, -, rfl⟩ |
    ⟨pen, tgt, pos, hi, henc⟩
  on_goal 7 =>
    rcases henc with ⟨-, rfl⟩ | ⟨hp, hok, -⟩ | ⟨r, hp, -⟩ | ⟨hp, -⟩
    · exact ⟨rfl, rfl, rfl, rfl, rfl, rfl⟩
    · exact absurd (fun _ => hok) (hne pen tgt pos hi (by simp [hp]))
    · exact absurd (by simp [hp]) (hne pen tgt pos hi (by simp [hp]))
    · exact absurd (by simp [hp]) (hne pen tgt pos hi (by simp [hp]))
  all_goals exact ⟨rfl, rfl, rfl, rfl, rfl, rfl⟩

/-- Settles O42, for the engine's steps and the host's. -/
theorem onlyEncryptMovesTheController : Obligations.OnlyEncryptMovesTheController := by
  intro s t h hr hne
  by_cases he : eventOf s = .engine
  · rcases engineStep_cases (engineStep_of_step h he) with ⟨-, rfl⟩ | ⟨-, -, rfl⟩ | ⟨hp, i, hd, hx⟩
    · exact ⟨rfl, rfl, rfl, rfl, rfl, rfl⟩
    · exact ⟨rfl, rfl, rfl, rfl, rfl, rfl⟩
    · refine exec_sameController (s := { s with agenda := s.agenda.tail }) hx fun pen tgt pos hi _ hok => ?_
      exact hne ⟨pen, tgt, pos, hi ▸ hd, he, hp, hok⟩
  · rw [hostStep_frame h he hr]
    exact ⟨rfl, rfl, rfl, rfl, rfl, rfl⟩

/-- A command's step keeps ERR or completes the command. -/
theorem exec_err_eq_or_completes (h : exec i s = .next t) :
    t.err = s.err ∨ (t.stepPos = .idle ∧ t.busy = false ∧ t.done = true) := by
  rcases exec_cases h with ⟨-, e, rfl⟩ | ⟨-, -, v, rfl⟩ | ⟨-, rfl⟩ | ⟨-, rfl⟩ | ⟨-, -, rfl⟩ | ⟨-, -, -, rfl⟩ |
    ⟨pen, tgt, pos, -, ⟨-, rfl⟩ | ⟨-, -, rfl⟩ | ⟨r, -, rfl⟩ | ⟨-, rfl⟩⟩
  all_goals simp

/-- Settles O45: an engine step that changes ERR completes a command, and no host event changes it. -/
theorem errChangesOnlyAtCompletion : Obligations.ErrChangesOnlyAtCompletion := by
  intro s t h hne
  by_cases he : eventOf s = .engine
  · rcases engineStep_cases (engineStep_of_step h he) with ⟨-, rfl⟩ | ⟨hp, -, rfl⟩ | ⟨hp, i, -, hx⟩
    · exact absurd rfl hne
    · exact .inr ⟨he, hp, rfl, rfl, rfl⟩
    · exact .inr ⟨he, hp, (exec_err_eq_or_completes hx).resolve_left hne⟩
  · refine .inl (by_contra fun hr => hne ?_)
    rw [hostStep_frame h he hr]

/-- An engine step keeps BOVR. -/
theorem engineStep_bovr (h : engineStep s = .next t) : t.bovr = s.bovr := by
  rcases engineStep_cases h with ⟨-, rfl⟩ | ⟨-, -, rfl⟩ | ⟨-, i, -, hx⟩
  · rfl
  · rfl
  · obtain ⟨-, -, -, -, -, hb, -⟩ := commandsLeaveTheHostsRegistersAlone i s t hx
    exact hb

/-- A host write keeps BOVR at 1, unless it writes a word with bit 3 = 1 to STATUS. -/
theorem hostWrite_bovr {width addr : Nat} {v : Word} (hb : s.bovr = true)
    (hv : width = 4 → addr = s.baseAddr + 0x004 → v.getLsbD 3 = false) : (hostWrite width addr v s).bovr = true := by
  rcases hostWrite_cases width addr v s with ⟨a, h⟩ | ⟨g, hw, haddr, h⟩
  · rw [h, respond_bovr, hb]
  · rw [h, respond_bovr]
    rcases writeWord_cases g v s with ⟨rfl, h⟩ | ⟨-, -, h⟩ | ⟨-, -, h⟩ | ⟨-, -, -, h⟩
    · rw [h, hv hw haddr]
      simp [hb]
    · rw [h]
    · rw [h, accept_bovr, hb]
    · rw [h, storeReg_frame, hb]

/-- A step of the system keeps BOVR at 1, unless it is a reset or the host's write of a word with bit 3 = 1 to STATUS. -/
theorem step_keeps_bovr (hb : s.bovr = true) (h : step s = .next t) (hr : eventOf s ≠ .reset)
    (hv : ∀ v : Word, eventOf s = .write 4 (s.baseAddr + 0x004) v → v.getLsbD 3 = false) : t.bovr = true := by
  rcases step_cases h with ⟨-, h⟩ | ⟨width, addr, -, rfl⟩ | ⟨width, addr, v, he, rfl⟩ | ⟨-, rfl⟩ | ⟨n, -, rfl⟩ | ⟨he, -⟩
  · rw [engineStep_bovr h, hb]
  · obtain ⟨a, n, h⟩ := hostRead_cases width addr { s with agenda := s.agenda.tail }
    rw [h, hb]
  · exact hostWrite_bovr hb fun hwidth haddr => hv v (by rw [he, hwidth, haddr])
  · obtain ⟨a, n, evs, h⟩ := hostWait_cases { s with agenda := s.agenda.tail }
    rw [h, hb]
  · obtain ⟨a, k, evs, h⟩ := hostSkipIfErr_cases n { s with agenda := s.agenda.tail }
    rw [h, hb]
  · exact absurd he hr

/-- The state with BOVR replaced. -/
def setBovr (b : Bool) (s : State) : State := { s with bovr := b }

/-- An outcome with its next state, where it has one, changed. -/
def onNext (f : State → State) : Host.Outcome State Fault Refusal → Host.Outcome State Fault Refusal
  | .next s => .next (f s)
  | .fault r => .fault r
  | .refused r => .refused r

/-- A command does the same whatever BOVR is. -/
theorem exec_setBovr (i : Instr) (b : Bool) (s : State) : exec i (setBovr b s) = onNext (setBovr b) (exec i s) := by
  cases i with
  | encrypt pen tgt pos =>
    have hp : (setBovr b s).stepPos = s.stepPos := rfl
    simp only [exec, execEncrypt, hp]
    cases s.stepPos with
    | first => dsimp only; split <;> rfl
    | _ => rfl
  | xor wa wb | hdist wa wb => simp only [exec, execXor, execHdist]; split <;> rfl
  | anBase =>
    have htv : (setBovr b s).tvalid = s.tvalid := rfl
    simp only [exec, execAnBase, htv]
    split <;> rfl
  | anAcc =>
    have hv : (setBovr b s).baseValid = s.baseValid := rfl
    have hfull : accFull (setBovr b s) = accFull s := rfl
    simp only [exec, execAnAcc, hv, hfull]
    split
    · rfl
    · split <;> rfl
  | _ => rfl

/-- Settles O44, by what a write does while busy, what a step keeps, and what a command reads. -/
theorem overrunFlagIsSticky : Obligations.OverrunFlagIsSticky := by
  have hstatus (v : Word) (s : State) : memWrite 4 0x004 v s = .ok { s with bovr := s.bovr && !v.getLsbD 3 } :=
    memWrite_offset .status v s
  refine ⟨fun s g v hb hg => ?_, fun s v hv => ?_, fun s v hv => ?_, fun s t hb h hr hv => ?_, fun s => rfl, fun i s t b h => ?_⟩
  · simp [writeWord, hg, hb]
  · rw [hstatus, hv, Bool.not_true, Bool.and_false]
  · rw [hstatus, hv, Bool.not_false, Bool.and_true]
  · exact step_keeps_bovr hb h hr hv
  · exact (exec_setBovr i b s).trans (congrArg (onNext (setBovr b)) h)

/-! ## Reads -/

/-- A word is open exactly when the running command writes it. -/
theorem isOpen_of_running (hb : s.busy = true) (hd : decode s.lcmd = .ok i) (g : Reg) : isOpen s g = inWriteSet i s g := by
  simp [isOpen, runningCommand, hb, hd, Except.toOption]

/-- No word is open while a rejected word runs. -/
theorem isOpen_of_rejected {e : Reject} (hd : decode s.lcmd = .error e) (g : Reg) : isOpen s g = false := by
  simp [isOpen, runningCommand, hd, Except.toOption]

/-- A word that is not open reads exactly. -/
theorem readWord_of_not_open (hs : g ≠ .status) (ho : isOpen s g = false) : readWord g s = (readReg g s, s) := by
  by_cases hc : g = .cmd
  · subst hc; rfl
  · simp [readWord, hc, hs, ho]

/-- A word that is open reads as the next free value. -/
theorem readWord_of_open (hc : g ≠ .cmd) (hs : g ≠ .status) (ho : isOpen s g = true) :
    readWord g s = ((Config.freeValue s.draws).setWidth 32, { s with draws := s.draws + 1 }) := by
  simp [readWord, hc, hs, ho, draw]

/-- Settles O55, by whether the running command writes the word. -/
theorem readWhileBusy : Obligations.ReadWhileBusy := by
  intro s hb
  refine ⟨by rw [memRead_offset]; rfl, fun g hs hc => ⟨fun e hd => ?_, fun i hd => ⟨fun hw => ?_, fun hw => ?_⟩⟩⟩
  · rw [memRead_offset, readWord_of_not_open hs (isOpen_of_rejected hd g)]
  · rw [memRead_offset, readWord_of_not_open hs (by rw [isOpen_of_running hb hd, hw])]
  · rw [memRead_offset, readWord_of_open hc hs (by rw [isOpen_of_running hb hd, hw])]

/-- Every word of an idle engine reads exactly (STATUS too, which takes no free value then). -/
theorem readWord_of_idle (hb : s.busy = false) (g : Reg) : readWord g s = (readReg g s, s) := by
  have hrun : runningCommand s = none := by simp [runningCommand, hb]
  by_cases hs : g = .status
  · subst hs
    simp [readWord, readStatus, hrun, readReg]
  · exact readWord_of_not_open hs (by simp [isOpen, hrun])

/-- A read of an idle engine at a word's offset returns the bits of the word. -/
theorem readsAs_readReg (hb : s.busy = false) (g : Reg) {off : Nat} {bits : Nat → Bool} (hoff : g.offset = off)
    (hbits : ∀ k, k < 32 → (readReg g s).getLsbD k = bits k) : readsAs s off bits :=
  ⟨readReg g s, by rw [← hoff, memRead_offset, readWord_of_idle hb], hbits⟩

/-- Reads of an idle engine at a register's two offsets return the register's bits. -/
theorem readsAsPair_of_wordOf (hb : s.busy = false) (f : Half → Reg) (v : Block) {off : Nat} {bits : Nat → Bool}
    (hoff : pairAt f off) (hread : ∀ h, readReg (f h) s = wordOf v h) (hbits : ∀ k, k < 64 → v.getLsbD k = bits k) :
    readsAsPair s off bits := by
  refine ⟨readsAs_readReg hb (f .hi) hoff.1 fun k hk => ?_, readsAs_readReg hb (f .lo) hoff.2 fun k hk => ?_⟩
  · rw [hread, wordOf, getLsbD_hiWord v hk, hbits _ (by omega)]
  · rw [hread, wordOf, getLsbD_loWord v hk, hbits _ (by omega)]

/-- The bits of a narrow register's word, with 0 above them. -/
theorem getLsbD_setWidth_of_lt {w n k : Nat} (v : BitVec w) (hk : k < n) :
    (v.setWidth n).getLsbD k = (decide (k < w) && v.getLsbD k) := by
  by_cases hw : k < w
  · simp [hk, hw]
  · simp [hw, BitVec.getLsbD_of_ge v k (by omega)]

/-- The bits of a MINMAX word (10_state.md rule R53). -/
theorem getLsbD_minmax (min max : Distance) {k : Nat} (hk : k < 32) :
    (0#9 ++ max ++ 0#9 ++ min).getLsbD k =
      if k < 7 then min.getLsbD k else decide (16 ≤ k ∧ k < 23) && max.getLsbD (k - 16) := by
  simp only [BitVec.getLsbD_append, BitVec.getLsbD_zero]
  by_cases h1 : k < 7
  · simp [h1]
  · by_cases h2 : k - 7 < 9
    · simp [h1, h2, show ¬ 16 ≤ k by omega]
    · by_cases h3 : k < 23
      · simp [h1, h2, h3, show k - 7 - 9 = k - 16 by omega, show k - 16 < 7 by omega, show 16 ≤ k by omega]
      · simp [h1, h2, h3, show ¬ k - 7 - 9 < 7 by omega]

theorem errCode_code_le (e : ErrCode) : e.code.toNat ≤ 6 := by cases e <;> decide

/-- STATUS reads 0 above its fields (10_state.md rule R32). -/
theorem getLsbD_packStatus_of_ge (busy done baseValid bovr : Bool) (e : ErrCode) (f : CtrlState) {k : Nat} (hk : 13 ≤ k) :
    (packStatus busy done baseValid bovr e f).getLsbD k = false := by
  obtain ⟨-, -, -, -, -, -, hupper⟩ := packStatus_fields busy done baseValid bovr e f
  by_cases h32 : k < 32
  · have hbit := congrArg (fun u => BitVec.getLsbD u (k - 13)) hupper
    simpa [show k - 13 < 19 by omega, show 13 + (k - 13) = k by omega] using hbit
  · exact BitVec.getLsbD_of_ge _ k (by omega)

/-- Settles O53: an idle engine's words read exactly, each as the layout of its register says. -/
theorem idleReadReturnsTheRegister : Obligations.IdleReadReturnsTheRegister := by
  intro s hb
  obtain ⟨hbusy, hdone, hbaseValid, hbovr, herr, hfstate, -⟩ := packStatus_fields s.busy s.done s.baseValid s.bovr s.err s.fstate
  have hpair (f : Half → Reg) (v : Block) {off : Nat} (hoff : pairAt f off) (hread : ∀ h, readReg (f h) s = wordOf v h) :
      readsAsPair s off v.getLsbD := readsAsPair_of_wordOf hb f v hoff hread fun _ _ => rfl
  refine ⟨fun g => by rw [memRead_offset, readWord_of_idle hb], rfl, rfl, hbusy, hdone, hbaseValid, hbovr, herr, hfstate,
    fun k hk => getLsbD_packStatus_of_ge _ _ _ _ _ _ hk, errCode_code_le _, ctrlState_code_le _, ?_, ?_,
    ⟨?_, ?_, ?_, ?_, ?_, ?_, ?_, ?_⟩, fun r => ⟨?_, ?_, ?_, ?_, ?_, ?_, ?_⟩⟩
  · exact readsAs_readReg hb .tvalid rfl fun k hk => getLsbD_setWidth_of_lt _ hk
  · exact readsAs_readReg hb .hdvalid rfl fun k hk => getLsbD_setWidth_of_lt _ hk
  · exact hpair .key _ ⟨rfl, rfl⟩ fun _ => rfl
  · exact hpair .pt _ ⟨rfl, rfl⟩ fun _ => rfl
  · exact hpair .opa _ ⟨rfl, rfl⟩ fun _ => rfl
  · exact hpair .opb _ ⟨rfl, rfl⟩ fun _ => rfl
  · exact hpair .res _ ⟨rfl, rfl⟩ fun _ => rfl
  · exact hpair .ct _ ⟨rfl, rfl⟩ fun _ => rfl
  · exact hpair .wkey _ ⟨rfl, rfl⟩ fun _ => rfl
  · exact hpair .wpt _ ⟨rfl, rfl⟩ fun _ => rfl
  · exact readsAsPair_of_wordOf hb (.sk r) (s.sk[r].setWidth 64) ⟨rfl, rfl⟩ (fun _ => rfl) fun k hk =>
      getLsbD_setWidth_of_lt _ hk
  · exact hpair (.trace r) _ ⟨rfl, rfl⟩ fun _ => rfl
  · exact hpair (.base r) _ ⟨rfl, rfl⟩ fun _ => rfl
  · exact readsAs_readReg hb (.hdLast r) rfl fun k hk => getLsbD_setWidth_of_lt _ hk
  · exact hpair (.sum r) _ ⟨rfl, rfl⟩ fun _ => rfl
  · exact readsAs_readReg hb (.count r) (by simp only [Reg.offset]; omega) fun _ _ => rfl
  · exact readsAs_readReg hb (.minmax r) (by simp only [Reg.offset]; omega) fun k hk => getLsbD_minmax _ _ hk

end Sys2Proof.Proofs

/-! The register window and the host's accesses (20_memory.md): the map, bus errors, writes, and what the accesses of a running
ENCRYPT cannot change. -/

namespace Sys2Proof.Proofs

open Sys2Proof.Machine Sys2Proof.Safety

variable {s t : State} {g : Reg} {off : Nat}

/-! ## The map -/

/-- Settles O50: the map's own laws, and the offsets it lists. -/
theorem registerMapIsOneToOne : Obligations.RegisterMapIsOneToOne := by
  refine ⟨fun _ _ => offset_injective, fun g => ⟨offset_mod_four g, offset_lt g, accessed_offset g⟩,
    ⟨rfl, rfl, rfl, rfl, rfl⟩,
    ⟨⟨rfl, rfl⟩, ⟨rfl, rfl⟩, ⟨rfl, rfl⟩, ⟨rfl, rfl⟩, ⟨rfl, rfl⟩, ⟨rfl, rfl⟩, ⟨rfl, rfl⟩, ⟨rfl, rfl⟩⟩,
    fun r => ⟨⟨rfl, rfl⟩, ⟨rfl, rfl⟩, ⟨rfl, rfl⟩, rfl, ⟨rfl, rfl⟩, ?_, ?_⟩⟩
  all_goals simp only [Reg.offset]; omega

/-- The offsets that 20_memory.md rule R83 lists as unmapped. -/
def InUnmappedRange (off : Nat) : Prop :=
  0x014 ≤ off ∧ off ≤ 0x01C ∨ 0x060 ≤ off ∧ off ≤ 0x0FC ∨ 0x180 ≤ off ∧ off ≤ 0x1FC ∨
    0x340 ≤ off ∧ off ≤ 0x3FC ∨ 0x500 ≤ off ∧ off ≤ 0xFFC

theorem halfOffset_eq (h : Half) : h.offset = 0 ∨ h.offset = 4 := by
  cases h <;> simp [Half.offset]

/-- No word stands in an unmapped range. -/
theorem not_inUnmappedRange_offset (g : Reg) : ¬ InUnmappedRange g.offset := by
  unfold InUnmappedRange
  cases g with
  | id | status | cmd | tvalid | hdvalid => simp [Reg.offset]
  | key h | pt h | opa h | opb h | res h | ct h | wkey h | wpt h =>
    have := halfOffset_eq h
    simp only [Reg.offset]
    omega
  | sk r h | trace r h | base r h | sum r h =>
    have := halfOffset_eq h
    simp only [Reg.offset]
    omega
  | hdLast r | count r | minmax r =>
    simp only [Reg.offset]
    omega

/-- Both words of a register are mapped. -/
theorem mapped_of_pairAt {f : Half → Reg} {b : Nat} (hf : pairAt f b) (h : off = b ∨ off = b + 4) :
    ∃ g : Reg, g.offset = off := by
  obtain ⟨hhi, hlo⟩ := hf
  rcases h with rfl | rfl
  · exact ⟨_, hhi⟩
  · exact ⟨_, hlo⟩

/-- Sixteen registers of two words, one after another, leave no gap. -/
theorem mapped_of_roundPairs {f : Round → Half → Reg} {b : Nat} (hf : ∀ r : Round, pairAt (f r) (b + 8 * r.val))
    (hlo : b ≤ off) (hhi : off < b + 128) (h4 : (off - b) % 4 = 0) : ∃ g : Reg, g.offset = off :=
  mapped_of_pairAt (hf ⟨(off - b) / 8, by omega⟩) (by simp only; omega)

/-- Below the subkeys the map leaves a gap at 0x014 to 0x01C alone. -/
theorem mapped_of_lt_060 (h4 : off % 4 = 0) (h : off < 0x060) (hgap : ¬(0x014 ≤ off ∧ off ≤ 0x01C)) :
    ∃ g : Reg, g.offset = off := by
  have hsmall : ∀ n < 24, ¬(5 ≤ n ∧ n ≤ 7) → ∃ g ∈ Reg.all, g.offset = 4 * n := by decide +kernel
  obtain ⟨g, -, hg⟩ := hsmall (off / 4) (by omega) (by omega)
  exact ⟨g, by omega⟩

/-- The four words of every round's accumulators leave no gap. -/
theorem mapped_of_accumulators (h4 : off % 4 = 0) (hlo : 0x400 ≤ off) (hhi : off < 0x500) : ∃ g : Reg, g.offset = off := by
  obtain ⟨-, -, -, -, hround⟩ := registerMapIsOneToOne
  obtain ⟨-, -, -, -, hsum, hcount, hminmax⟩ := hround ⟨(off - 0x400) / 16, by omega⟩
  have hword : (off = 0x400 + 16 * ((off - 0x400) / 16) ∨ off = 0x400 + 16 * ((off - 0x400) / 16) + 4) ∨
      off = 0x408 + 16 * ((off - 0x400) / 16) ∨ off = 0x40C + 16 * ((off - 0x400) / 16) := by omega
  rcases hword with h | h | h
  · exact mapped_of_pairAt hsum h
  · exact ⟨_, hcount.trans h.symm⟩
  · exact ⟨_, hminmax.trans h.symm⟩

/-- Every aligned offset outside the unmapped ranges has a word. -/
theorem mapped_of_not_inUnmappedRange (h4 : off % 4 = 0) (hoff : off < 0x1000) (h : ¬ InUnmappedRange off) :
    ∃ g : Reg, g.offset = off := by
  have hblock : off < 0x060 ∧ ¬(0x014 ≤ off ∧ off ≤ 0x01C) ∨ 0x100 ≤ off ∧ off < 0x180 ∨ 0x200 ≤ off ∧ off < 0x280 ∨
      0x280 ≤ off ∧ off < 0x300 ∨ 0x300 ≤ off ∧ off < 0x340 ∨ 0x400 ≤ off ∧ off < 0x500 := by
    unfold InUnmappedRange at h
    omega
  rcases hblock with ⟨hhi, hgap⟩ | ⟨hlo, hhi⟩ | ⟨hlo, hhi⟩ | ⟨hlo, hhi⟩ | ⟨hlo, hhi⟩ | ⟨hlo, hhi⟩
  · exact mapped_of_lt_060 h4 hhi hgap
  · exact mapped_of_roundPairs (f := .sk) (fun _ => ⟨rfl, rfl⟩) hlo hhi (by omega)
  · exact mapped_of_roundPairs (f := .trace) (fun _ => ⟨rfl, rfl⟩) hlo hhi (by omega)
  · exact mapped_of_roundPairs (f := .base) (fun _ => ⟨rfl, rfl⟩) hlo hhi (by omega)
  · exact ⟨.hdLast ⟨(off - 0x300) / 4, by omega⟩, by simp only [Reg.offset]; omega⟩
  · exact mapped_of_accumulators h4 hlo hhi

/-! ## Bus errors -/

/-- A read that reaches no word is a bus error. -/
theorem memRead_of_not_accessed {width : Nat} (h : accessed width off = none) (s : State) :
    memRead width off s = .error (.busError width off) := by
  simp only [memRead, h]

/-- A write that reaches no word is a bus error. -/
theorem memWrite_of_not_accessed {width : Nat} (h : accessed width off = none) (v : Word) (s : State) :
    memWrite width off v s = .error (.busError width off) := by
  simp only [memWrite, h]

/-- Settles O51: the words of the map lie outside the ranges of R83 and fill the rest. -/
theorem unmappedOffsetsAreBusErrors : Obligations.UnmappedOffsetsAreBusErrors := by
  intro off s v h4 hoff
  refine ⟨⟨?_, mapped_of_not_inUnmappedRange h4 hoff⟩, fun hno => ?_⟩
  · rintro ⟨g, rfl⟩
    exact not_inUnmappedRange_offset g
  · have hnone : accessed 4 off = none := accessed_eq_none.mpr (.inr (.inr hno))
    exact ⟨memRead_of_not_accessed hnone s, memWrite_of_not_accessed hnone v s⟩

/-- The bus addresses of the window (20_memory.md rule R70). -/
theorem windowOffset_add (baseAddr : Nat) (h : off < 0x1000) : windowOffset baseAddr (baseAddr + off) = some off := by
  simp [windowOffset, h]

/-- Settles O52: an access that reaches no word is answered to the host alone. -/
theorem busErrorChangesNoEngineState : Obligations.BusErrorChangesNoEngineState := by
  intro s width off v hoff hbad
  have hnone : accessed width off = none := accessed_eq_none.mpr hbad
  constructor
  · simp only [hostRead, windowOffset_add _ hoff, memRead_of_not_accessed hnone, respond]
  · simp only [hostWrite, windowOffset_add _ hoff, memWrite_of_not_accessed hnone, respond]

/-! ## Writes -/

/-- While a command runs, a write to a word other than STATUS sets BOVR and does nothing else. -/
theorem writeWord_of_busy (hb : s.busy = true) (hs : g ≠ .status) (v : Word) : writeWord g v s = { s with bovr := true } := by
  simp [writeWord, hs, hb]

/-- While the engine is idle, a write to a word other than STATUS and CMD is a store. -/
theorem writeWord_of_idle (hb : s.busy = false) (hs : g ≠ .status) (hc : g ≠ .cmd) (v : Word) :
    writeWord g v s = storeReg g v s := by
  simp [writeWord, hs, hc, hb]

/-- A store to a word of no host register changes nothing. -/
theorem storeReg_readOnly (hg : ∀ h, g ≠ .key h ∧ g ≠ .pt h ∧ g ≠ .opa h ∧ g ≠ .opb h) (v : Word) (s : State) :
    storeReg g v s = s := by
  cases g with
  | key h | pt h | opa h | opb h => simpa using hg h
  | _ => rfl

/-- Settles O57, for an idle and for a busy engine. -/
theorem readOnlyRegistersIgnoreWrites : Obligations.ReadOnlyRegistersIgnoreWrites := by
  intro s g v hs hc hg
  refine ⟨fun hb => ?_, fun hb => ?_⟩
  · rw [memWrite_offset, writeWord_of_idle hb hs hc, storeReg_readOnly hg]
  · rw [memWrite_offset, writeWord_of_busy hb hs]

/-- The words that software can store to: those of KEY, PT, OPA and OPB (10_state.md rules R42 to R44). -/
def IsHostWord (g : Reg) : Prop := ∃ h, g = .key h ∨ g = .pt h ∨ g = .opa h ∨ g = .opb h

/-- A stored word reads as the value stored. -/
theorem readReg_storeReg_self (hg : IsHostWord g) (v : Word) (s : State) : readReg g (storeReg g v s) = v := by
  obtain ⟨h, rfl | rfl | rfl | rfl⟩ := hg
  all_goals exact wordOf_setWord _ h v

/-- A store to one word keeps what every other word reads as. -/
theorem readReg_storeReg_of_ne {g' : Reg} (hne : g' ≠ g) (v : Word) (s : State) :
    readReg g' (storeReg g v s) = readReg g' s := by
  cases g with
  | key h => cases g' with
    | key h' => exact wordOf_setWord_of_ne _ v (by simpa using hne)
    | _ => rfl
  | pt h => cases g' with
    | pt h' => exact wordOf_setWord_of_ne _ v (by simpa using hne)
    | _ => rfl
  | opa h => cases g' with
    | opa h' => exact wordOf_setWord_of_ne _ v (by simpa using hne)
    | _ => rfl
  | opb h => cases g' with
    | opb h' => exact wordOf_setWord_of_ne _ v (by simpa using hne)
    | _ => rfl
  | _ => rfl

/-- A write to a host register's word while the engine is idle is a store. -/
theorem writeWord_hostWord (hg : IsHostWord g) (hb : s.busy = false) (v : Word) : writeWord g v s = storeReg g v s := by
  obtain ⟨h, rfl | rfl | rfl | rfl⟩ := hg
  all_goals exact writeWord_of_idle hb (by simp) (by simp) v

/-- Settles O56: the write is a store, which replaces one half of one register. -/
theorem writeThenReadGivesTheWord : Obligations.WriteThenReadGivesTheWord := by
  refine ⟨fun s g v hb hg => ?_, fun s h v hb => ?_⟩
  · have hframe := storeReg_frame g v s
    have hbusy : (storeReg g v s).busy = false := by rw [hframe, hb]
    have haddr : (storeReg g v s).baseAddr = s.baseAddr := by rw [hframe]
    have hresp : (storeReg g v s).responses = s.responses := by rw [hframe]
    refine ⟨storeReg g v s, ?_, readReg_storeReg_self hg v s, fun g' hne => readReg_storeReg_of_ne hne v s, hframe, ?_, ?_⟩
    · rw [memWrite_offset, writeWord_hostWord hg hb]
    · rw [hostWrite_offset, writeWord_hostWord hg hb, respond, hresp]
    · rw [← haddr, hostRead_offset, readWord_of_idle hbusy, readReg_storeReg_self hg, respond, hresp]
  · have hstore {g : Reg} (hg : IsHostWord g) : memWrite 4 g.offset v s = .ok (storeReg g v s) := by
      rw [memWrite_offset, writeWord_hostWord hg hb]
    exact ⟨⟨_, hstore ⟨h, .inl rfl⟩, setWord_halfReplaced h _ v⟩,
      ⟨_, hstore ⟨h, .inr (.inl rfl)⟩, setWord_halfReplaced h _ v⟩,
      ⟨_, hstore ⟨h, .inr (.inr (.inl rfl))⟩, setWord_halfReplaced h _ v⟩,
      ⟨_, hstore ⟨h, .inr (.inr (.inr rfl))⟩, setWord_halfReplaced h _ v⟩⟩

/-! ## The host's events -/

/-- Settles O58, by the rules of the host's accesses. -/
theorem hostAccessesReachTheirWord : Obligations.HostAccessesReachTheirWord := by
  refine ⟨fun _ _ _ _ => step_read, fun _ _ _ _ _ => step_write, fun s g => ?_, fun s g v => ?_, fun s width addr => ?_⟩
  · exact ⟨_, _, memRead_offset g s, hostRead_offset g s⟩
  · exact ⟨_, memWrite_offset g v s, hostWrite_offset g v s⟩
  · exact hostRead_cases width addr s

/-- Settles O7: an engine event answers a next state because every command does, and any other event because no access ends a
run. -/
theorem everyStepAnswersANextState : Obligations.EveryStepAnswersANextState := by
  intro s
  rw [step]
  cases (nextEvent s).1 with
  | engine => exact engineStep_next _
  | _ => exact ⟨_, rfl⟩

end Sys2Proof.Proofs

/-! An ENCRYPT with host accesses between its steps (20_memory.md rule R86). -/

namespace Sys2Proof.Proofs

open Sys2Proof.Machine Sys2Proof.Safety

/-- The cipher registers after INITIAL and `n` rounds of the encryption of `pt` under the working key `key`. -/
structure RoundsDone (key pt : Block) (n : Nat) (s : State) : Prop where
  wkey : s.wkey = key
  wpt : s.wpt = pt
  sk : s.sk = schedule key
  keyHalves : (s.c, s.d) = keyHalves key 16
  halves : (s.l, s.r) = desHalves key pt n
  trace : ∀ r : Round, r.val < n → s.trace[r] = desTrace key pt r
  tvalid : s.tvalid = BitVec.ofNat 16 (2 ^ n - 1)

variable {s t : State} {n : Nat}

/-- INITIAL leaves no round done. -/
theorem roundsDone_encryptInitial (pen : Bool) (tgt : Target) (pos : Nat) (s : State) :
    RoundsDone (workingKey pen tgt pos s.key) (workingPt pen tgt pos s.pt) 0 (encryptInitial pen tgt pos s) where
  wkey := encryptInitial_wkey ..
  wpt := encryptInitial_wpt ..
  sk := encryptInitial_sk ..
  keyHalves := by simp
  halves := by simp
  trace _ hr := absurd hr (Nat.not_lt_zero _)
  tvalid := encryptInitial_tvalid ..

/-- A ROUND step after the rounds before it leaves one round more done. -/
theorem roundsDone_encryptRound {key pt : Block} {r : Round} (h : RoundsDone key pt r.val s) :
    RoundsDone key pt (r.val + 1) (encryptRound r s) where
  wkey := h.wkey
  wpt := h.wpt
  sk := h.sk
  keyHalves := h.keyHalves
  halves := encryptRound_halves h.sk h.halves
  trace r' hr' := by
    by_cases hrr : r' = r
    · rw [hrr, encryptRound_trace_self h.sk h.halves]
    · have hne : r'.val ≠ r.val := fun e => hrr (Fin.ext e)
      rw [encryptRound_trace_of_ne hrr, h.trace r' (by omega)]
  tvalid := by rw [encryptRound_tvalid, h.tvalid, setRoundBit_prefix]

/-- The engine runs an ENCRYPT with these operands and stands at position `p` (70_reset_and_hazards.md rule R345). -/
def RunsAt (pen : Bool) (tgt : Target) (pos : Nat) (p : StepPos) (s : State) : Prop :=
  s.busy = true ∧ s.stepPos = p ∧ decode s.lcmd = .ok (.encrypt pen tgt pos)

/-- An ENCRYPT accepted with `key` in KEY and `pt` in PT has taken `n` steps; after the eighteenth it has completed, and a
later command may have been accepted. -/
inductive Encrypting (pen : Bool) (tgt : Target) (pos : Nat) (key pt : Block) : Nat → State → Prop
  | accepted {s : State} : RunsAt pen tgt pos .first s → s.key = key → s.pt = pt → Encrypting pen tgt pos key pt 0 s
  | round {s : State} {r : Round} : RunsAt pen tgt pos (.round r) s →
      RoundsDone (workingKey pen tgt pos key) (workingPt pen tgt pos pt) r.val s → Encrypting pen tgt pos key pt (r.val + 1) s
  | last {s : State} : RunsAt pen tgt pos .last s →
      RoundsDone (workingKey pen tgt pos key) (workingPt pen tgt pos pt) 16 s → Encrypting pen tgt pos key pt 17 s
  | completed {s : State} : RoundsDone (workingKey pen tgt pos key) (workingPt pen tgt pos pt) 16 s →
      s.ct = desEncrypt (workingKey pen tgt pos key) (workingPt pen tgt pos pt) → s.fstate = .final →
      Encrypting pen tgt pos key pt 18 s

variable {pen : Bool} {tgt : Target} {pos : Nat} {key pt : Block}

/-! ## The engine's steps -/

/-- A running ENCRYPT's engine step. -/
theorem engineStep_of_runsAt {p : StepPos} (h : RunsAt pen tgt pos p s) (hp : p ≠ .idle) :
    engineStep s = exec (.encrypt pen tgt pos) s := by
  obtain ⟨-, hpos, hd⟩ := h
  simp [engineStep, hpos, hp, hd]

/-- After a ROUND step that is not the sixteenth the next round's is due, and after the sixteenth FINAL. -/
theorem encrypting_encryptRound {r : Round} (h : RunsAt pen tgt pos (.round r) s)
    (hd : RoundsDone (workingKey pen tgt pos key) (workingPt pen tgt pos pt) r.val s) :
    Encrypting pen tgt pos key pt (r.val + 2) (encryptRound r s) := by
  obtain ⟨hb, -, hcmd⟩ := h
  have hdone := roundsDone_encryptRound hd
  by_cases hr : r.val + 1 < 16
  · exact .round (r := ⟨r.val + 1, hr⟩) ⟨hb, by simp [StepPos.next, hr], hcmd⟩ hdone
  · obtain rfl : r = 15 := Fin.ext (by simp; omega)
    exact .last ⟨hb, rfl, hcmd⟩ hdone

/-- FINAL after sixteen rounds completes the encryption. -/
theorem encrypting_encryptFinal (hd : RoundsDone (workingKey pen tgt pos key) (workingPt pen tgt pos pt) 16 s) :
    Encrypting pen tgt pos key pt 18 (encryptFinal s) :=
  .completed ⟨hd.wkey, hd.wpt, hd.sk, hd.keyHalves, hd.halves, hd.trace, hd.tvalid⟩
    (by rw [encryptFinal_ct, hd.halves, desEncrypt]) rfl

/-- An engine step is one step more of the encryption. -/
theorem engineStep_encrypting (h : Encrypting pen tgt pos key pt n s) (hok : positionOk pen pos = true) (hn : n < 18)
    (hx : engineStep s = .next t) : Encrypting pen tgt pos key pt (n + 1) t := by
  cases h with
  | accepted hrun hkey hpt =>
    rw [engineStep_of_runsAt hrun (by simp)] at hx
    obtain ⟨hb, hpos, hd⟩ := hrun
    obtain rfl : encryptInitial pen tgt pos s = t := by simpa [exec, execEncrypt, hpos, hok] using hx
    subst hkey hpt
    exact .round (r := 0) ⟨hb, encryptInitial_stepPos .., hd⟩ (roundsDone_encryptInitial ..)
  | @round _ r hrun hdone =>
    rw [engineStep_of_runsAt hrun (by simp)] at hx
    have ⟨_, hpos, _⟩ := hrun
    obtain rfl : encryptRound r s = t := by simpa [exec, execEncrypt, hpos] using hx
    exact encrypting_encryptRound hrun hdone
  | last hrun hdone =>
    rw [engineStep_of_runsAt hrun (by simp)] at hx
    obtain ⟨-, hpos, -⟩ := hrun
    obtain rfl : encryptFinal s = t := by simpa [exec, execEncrypt, hpos] using hx
    exact encrypting_encryptFinal hdone
  | completed => omega

/-! ## The host's accesses -/

/-- The cipher registers of an encryption are neither the host's, nor of the acceptance, nor the model's own. -/
theorem roundsDone_of_frame (h : RoundsDone key pt n s)
    (ht : t = { s with
      busy := t.busy, done := t.done, bovr := t.bovr, key := t.key, pt := t.pt, opa := t.opa, opb := t.opb, lcmd := t.lcmd,
      stepPos := t.stepPos, agenda := t.agenda, responses := t.responses, draws := t.draws }) : RoundsDone key pt n t := by
  rw [ht]
  exact ⟨h.wkey, h.wpt, h.sk, h.keyHalves, h.halves, h.trace, h.tvalid⟩

/-- How far an encryption is depends neither on BOVR nor on the model's own fields. -/
theorem encrypting_of_frame (h : Encrypting pen tgt pos key pt n s)
    (ht : t = { s with bovr := t.bovr, agenda := t.agenda, responses := t.responses, draws := t.draws }) :
    Encrypting pen tgt pos key pt n t := by
  rw [ht]
  cases h with
  | accepted hrun hkey hpt => exact .accepted hrun hkey hpt
  | round hrun hdone => exact .round hrun (roundsDone_of_frame hdone rfl)
  | last hrun hdone => exact .last hrun (roundsDone_of_frame hdone rfl)
  | completed hdone hct hf => exact .completed (roundsDone_of_frame hdone rfl) hct hf

/-- While a command runs, a step of the system that is neither the engine's nor a reset changes BOVR and the model's own fields at
most. -/
theorem hostStep_frame_of_busy (hb : s.busy = true) (h : step s = .next t) (he : eventOf s ≠ .engine)
    (hr : eventOf s ≠ .reset) :
    t = { s with bovr := t.bovr, agenda := t.agenda, responses := t.responses, draws := t.draws } := by
  obtain ⟨u, hu, ht⟩ | ⟨hreset, -⟩ := hostStep_cases h he
  · rcases hu with rfl | hu | ⟨hidle, -⟩ | ⟨hidle, -⟩
    · rw [ht]
    · rw [ht, hu]
    · simp [hb] at hidle
    · simp [hb] at hidle
  · exact absurd hreset hr

/-- A host event keeps the encryption where it is: while it runs because every write is ignored, and afterwards because no host
event writes a cipher register. -/
theorem hostStep_encrypting (h : Encrypting pen tgt pos key pt n s) (hx : step s = .next t) (he : eventOf s ≠ .engine)
    (hr : eventOf s ≠ .reset) : Encrypting pen tgt pos key pt n t := by
  by_cases hb : s.busy = true
  · exact encrypting_of_frame h (hostStep_frame_of_busy hb hx he hr)
  · cases h with
    | accepted hrun | round hrun | last hrun => exact absurd hrun.1 hb
    | completed hdone hct hf =>
      have hframe := hostStep_frame hx he hr
      exact .completed (roundsDone_of_frame hdone hframe) (by rw [hframe, hct]) (by rw [hframe, hf])

/-! ## The run -/

/-- After its eighteenth step an encryption has completed. -/
theorem completed_of_encrypting (h : Encrypting pen tgt pos key pt n s) (hn : n = 18) :
    RoundsDone (workingKey pen tgt pos key) (workingPt pen tgt pos pt) 16 s ∧
      s.ct = desEncrypt (workingKey pen tgt pos key) (workingPt pen tgt pos pt) ∧ s.fstate = .final := by
  cases h with
  | completed hdone hct hf => exact ⟨hdone, hct, hf⟩
  | round => omega
  | accepted | last => contradiction

/-- An engine step keeps the events to come. -/
theorem engineStep_agenda (h : engineStep s = .next t) : t.agenda = s.agenda := by
  rcases engineStep_cases h with ⟨-, rfl⟩ | ⟨-, -, rfl⟩ | ⟨-, i, -, hx⟩
  · rfl
  · rfl
  · obtain ⟨-, -, -, -, -, -, -, hagenda, -⟩ := commandsLeaveTheHostsRegistersAlone i s t hx
    exact hagenda

/-- A host read keeps the events to come. -/
theorem hostRead_agenda (width addr : Nat) (s : State) : (hostRead width addr s).agenda = s.agenda := by
  obtain ⟨a, k, h⟩ := hostRead_cases width addr s
  rw [h]

/-- A write to a word keeps the events to come. -/
theorem writeWord_agenda (g : Reg) (v : Word) (s : State) : (writeWord g v s).agenda = s.agenda := by
  rcases writeWord_cases g v s with ⟨-, h⟩ | ⟨-, -, h⟩ | ⟨-, -, h⟩ | ⟨-, -, -, h⟩
  · rw [h]
  · rw [h]
  · rw [h, accept_agenda]
  · rw [h, storeReg_frame]

/-- A host write keeps the events to come. -/
theorem hostWrite_agenda (width addr : Nat) (v : Word) (s : State) : (hostWrite width addr v s).agenda = s.agenda := by
  rcases hostWrite_cases width addr v s with ⟨a, h⟩ | ⟨g, -, -, h⟩
  · rw [h, respond_agenda]
  · rw [h, respond_agenda, writeWord_agenda]

/-- An engine step or a host access leaves the events after it to come. -/
theorem step_agenda {e : Event} {rest : List Event} (hs : s.agenda = e :: rest) (h : step s = .next t)
    (he : e = .engine ∨ IsAccess e) : t.agenda = rest := by
  rcases he with rfl | ⟨width, addr, rfl⟩ | ⟨width, addr, v, rfl⟩
  · have hev : eventOf s = .engine := by rw [eventOf, nextEvent, hs]
    rw [engineStep_agenda (engineStep_of_step h hev), hs, List.tail_cons]
  · obtain rfl : hostRead width addr { s with agenda := rest } = t := by simpa [step_read hs] using h
    exact hostRead_agenda ..
  · obtain rfl : hostWrite width addr v { s with agenda := rest } = t := by simpa [step_write hs] using h
    exact hostWrite_agenda ..

/-- An encryption with engine steps and host accesses alone to come, its last steps among them, completes. -/
theorem run_encrypting (hok : positionOk pen pos = true) (evs : List Event) (hagenda : s.agenda = evs)
    (h : Encrypting pen tgt pos key pt n s) (hevs : ∀ e ∈ evs, e = .engine ∨ IsAccess e) (hn : n + evs.count .engine = 18) :
    ∃ t, run evs.length s = .next t ∧ Encrypting pen tgt pos key pt 18 t := by
  induction evs generalizing s n with
  | nil => exact ⟨s, rfl, by simpa using hn ▸ h⟩
  | cons e rest ih =>
    obtain ⟨u, hu⟩ := everyStepAnswersANextState s
    have hev : eventOf s = e := by simp [eventOf, nextEvent, hagenda]
    have he := hevs e List.mem_cons_self
    have hrest : u.agenda = rest := step_agenda hagenda hu he
    have hevs' : ∀ e ∈ rest, e = .engine ∨ IsAccess e := fun e h => hevs e (List.mem_cons_of_mem _ h)
    rw [List.length_cons, run_succ _ hu]
    by_cases heng : e = .engine
    · subst heng
      rw [List.count_cons_self] at hn
      have h' : Encrypting pen tgt pos key pt n { s with agenda := s.agenda.tail } := encrypting_of_frame h rfl
      exact ih hrest (engineStep_encrypting h' hok (by omega) (engineStep_of_step hu hev)) hevs' (by omega)
    · rw [List.count_cons_of_ne heng] at hn
      have hreset : e ≠ .reset := by
        rintro rfl
        simp [IsAccess] at he
      exact ih hrest (hostStep_encrypting h hu (hev ▸ heng) (hev ▸ hreset)) hevs' hn

/-- Settles O28: the accepted ENCRYPT goes through its eighteen steps, whatever accesses stand between them. -/
theorem hostAccessesCannotDisturbEncrypt : Obligations.HostAccessesCannotDisturbEncrypt := by
  intro pen tgt pos s evs hagenda hb hp hd hok hevs hcount
  have hstart : Encrypting pen tgt pos s.key s.pt 0 s := .accepted ⟨hb, hp, hd⟩ rfl rfl
  obtain ⟨t, ht, hend⟩ := run_encrypting hok evs hagenda hstart hevs (by omega)
  obtain ⟨hdone, hct, hf⟩ := completed_of_encrypting hend rfl
  refine ⟨t, ht, hct, fun r => hdone.trace r r.isLt, hdone.tvalid, hf, hdone.wkey, hdone.wpt, ?_, ?_, ?_⟩
  · rw [hdone.wkey, hdone.sk]
  · rw [hdone.wkey, hdone.keyHalves]
  · rw [hdone.wkey, hdone.wpt, hdone.halves]

end Sys2Proof.Proofs

/-! The command words (30_encoding.md): what a decoded word is, the decoder and the encoder as inverses of each other, and the
step of a decoded command. -/

namespace Sys2Proof.Proofs

open Sys2Proof.Machine Sys2Proof.Safety

variable {s : State} {i : Instr} {op : Opcode} {w w' : Word}

/-! ## Codes -/

/-- A search of a list by code finds the one entry with that code, if every entry is found by its own. -/
theorem find?_code_eq_some {α : Type} {n : Nat} {entries : List α} {code : α → BitVec n} {a : α} {c : BitVec n}
    (hfound : ∀ a, entries.find? (fun x => code x == code a) = some a) :
    entries.find? (fun x => code x == c) = some a ↔ code a = c := by
  constructor
  · intro h
    simpa using List.find?_some h
  · rintro rfl
    exact hfound a

theorem opcode_ofCode_eq_some {c : BitVec 8} : Opcode.ofCode c = some op ↔ op.code = c :=
  find?_code_eq_some fun op => by cases op <;> rfl

theorem table_ofCode_eq_some {c : BitVec 3} {t : Table} : Table.ofCode c = some t ↔ t.code = c :=
  find?_code_eq_some fun t => by cases t <;> rfl

theorem width_ofCode_eq_some {c : BitVec 3} {v : Width} : Width.ofCode c = some v ↔ v.code = c :=
  find?_code_eq_some fun v => by cases v <;> rfl

theorem widthFields_eq_some {wa wb : Width} :
    widthFields w = some (wa, wb) ↔ wa.code = lowSelector w ∧ wb.code = highSelector w := by
  rw [← width_ofCode_eq_some, ← width_ofCode_eq_some]
  unfold widthFields
  split
  · simp [*]
  · rename_i hnone
    simpa using hnone wa wb

/-- No two rows of the opcode map share a value of field OP. -/
theorem opcode_code_injective {op' : Opcode} (h : op.code = op'.code) : op = op' := by
  simpa [opcode_ofCode_eq_some.mpr rfl] using opcode_ofCode_eq_some.mpr h.symm

/-! ## Rows of the opcode map -/

/-- The word meets the mask and match of an opcode's row of the map (R121). -/
def Matches (op : Opcode) (w : Word) : Prop := w &&& op.mask = op.matchWord

/-- Every mask covers field OP, and every match has its row's code there. -/
theorem opField_of_matches (h : Matches op w) : opField w = op.code := by
  have hmask : opField op.mask = BitVec.allOnes 8 := by cases op <;> rfl
  have hmatch : opField op.matchWord = op.code := by cases op <;> rfl
  have hand : opField (w &&& op.mask) = opField w &&& opField op.mask := BitVec.extractLsb'_and
  rw [h, hmask, BitVec.and_allOnes, hmatch] at hand
  exact hand.symm

/-- No word matches two rows of the map. -/
theorem matches_unique {op' : Opcode} (h : Matches op w) (h' : Matches op' w) : op = op' :=
  opcode_code_injective ((opField_of_matches h).symm.trans (opField_of_matches h'))

/-- Two words of one row that agree in the bits its mask leaves free are equal. -/
theorem eq_of_matches (h : Matches op w) (h' : Matches op w')
    (hfree : ∀ j < 32, op.mask.getLsbD j = false → w.getLsbD j = w'.getLsbD j) : w = w' := by
  refine BitVec.eq_of_getLsbD_eq fun j hj => ?_
  cases hm : op.mask.getLsbD j with
  | false => exact hfree j hj hm
  | true =>
    have hbit := congrArg (·.getLsbD j) (h.trans h'.symm)
    simpa [hm] using hbit

/-! ## Decoding -/

/-- The word's fields, read by the command's format, hold the command's operands (R112 to R120). -/
def HasOperands : Instr → Word → Prop
  | .encrypt pen tgt pos, w => w.getLsbD 8 = pen ∧ Target.ofBit (w.getLsbD 9) = tgt ∧ (posField w).toNat = pos
  | .permute t, w => t.code = lowSelector w
  | .rotl28 n, w => (amountField w).toNat = n
  | .xor wa wb, w => wa.code = lowSelector w ∧ wb.code = highSelector w
  | .sbox box, w => (lowSelector w).toFin = box
  | .hdist wa wb, w => wa.code = lowSelector w ∧ wb.code = highSelector w
  | _, _ => True

/-- The fields of an opcode's format give a command exactly when it is the opcode's and they hold its operands. -/
theorem decodeFields_eq_ok : decodeFields op w = .ok i ↔ i.opcode = op ∧ HasOperands i w := by
  constructor
  · intro h
    cases op with
    | permute =>
      simp only [decodeFields] at h
      split at h <;> cases h
      exact ⟨rfl, table_ofCode_eq_some.mp ‹_›⟩
    | xor | hdist =>
      simp only [decodeFields] at h
      split at h <;> cases h
      exact ⟨rfl, widthFields_eq_some.mp ‹_›⟩
    | encrypt => cases h; exact ⟨rfl, rfl, rfl, rfl⟩
    | rotl28 | sbox => cases h; exact ⟨rfl, rfl⟩
    | nop | ksched | feval | anClear | anBase | anAcc => cases h; exact ⟨rfl, trivial⟩
  · rintro ⟨rfl, h⟩
    cases i with
    | permute t => simp [decodeFields, Instr.opcode, table_ofCode_eq_some.mpr h]
    | xor wa wb | hdist wa wb => simp [decodeFields, Instr.opcode, widthFields_eq_some.mpr h]
    | encrypt pen tgt pos => obtain ⟨rfl, rfl, rfl⟩ := h; rfl
    | rotl28 n | sbox box => cases h; rfl
    | nop | ksched | feval | anClear | anBase | anAcc => rfl

/-- A word decodes to a command exactly when it matches the command's row of the map and its fields hold the operands (R127). -/
theorem decode_eq_ok : decode w = .ok i ↔ Matches i.opcode w ∧ HasOperands i w := by
  constructor
  · intro h
    unfold decode at h
    split at h
    · cases h
    · split at h
      · cases h
      · obtain ⟨rfl, hops⟩ := decodeFields_eq_ok.mp h
        exact ⟨not_not.mp ‹_›, hops⟩
  · rintro ⟨hm, hops⟩
    have hop : Opcode.ofCode (opField w) = some i.opcode := opcode_ofCode_eq_some.mpr (opField_of_matches hm).symm
    have hm' : w &&& i.opcode.mask = i.opcode.matchWord := hm
    simpa [decode, hop, hm'] using decodeFields_eq_ok.mpr ⟨rfl, hops⟩

/-- Fields POS and N are as wide as the ranges that have an encoding (R128). -/
theorem wellFormed_of_hasOperands (h : HasOperands i w) : i.wellFormed = true := by
  cases i with
  | encrypt pen tgt pos =>
    obtain ⟨-, -, rfl⟩ := h
    exact decide_eq_true (posField w).isLt
  | rotl28 n =>
    cases h
    exact decide_eq_true (amountField w).isLt
  | nop | ksched | permute | xor | sbox | feval | hdist | anClear | anBase | anAcc => rfl

/-! ## The operands of an encoding -/

/-- A field above the last part of a word is read from the parts before it. -/
theorem getLsbD_append_hi {m n : Nat} (x : BitVec m) (y : BitVec n) (j : Nat) : (x ++ y).getLsbD (n + j) = x.getLsbD j := by
  simp [BitVec.getLsbD_append]

/-- A part of a word with `n` bits below it is the word's `n`-th field. -/
theorem extract_middle {l m n : Nat} (x : BitVec l) (y : BitVec m) (z : BitVec n) : (x ++ y ++ z).extractLsb' n m = y := by
  rw [extract_append_hi _ _ _ _ le_rfl, Nat.sub_self, extract_append_lo _ _ _ _ (by omega), BitVec.extractLsb'_eq_self]

@[simp] theorem lowSelector_encodeT (sel : BitVec 3) (op : Opcode) : lowSelector (encodeT sel op) = sel :=
  extract_middle 0#21 sel op.code

@[simp] theorem amountField_encodeS (n : BitVec 5) (op : Opcode) : amountField (encodeS n op) = n :=
  extract_middle 0#19 n op.code

@[simp] theorem lowSelector_encodeW (wa wb : BitVec 3) (op : Opcode) : lowSelector (encodeW wa wb op) = wa :=
  extract_middle (0#17 ++ wb ++ 0#1) wa op.code

@[simp] theorem highSelector_encodeW (wa wb : BitVec 3) (op : Opcode) : highSelector (encodeW wa wb op) = wb :=
  calc highSelector (encodeW wa wb op)
    _ = (0#17 ++ wb ++ 0#1 ++ wa).extractLsb' 4 3 := extract_append_hi _ op.code 12 3 (by decide)
    _ = (0#17 ++ wb ++ 0#1).extractLsb' 1 3 := extract_append_hi _ wa 4 3 (by decide)
    _ = wb := extract_middle 0#17 wb 0#1

@[simp] theorem posField_encodeX (pos : BitVec 7) (tgt pen : BitVec 1) (op : Opcode) :
    posField (encodeX pos tgt pen op) = pos :=
  calc posField (encodeX pos tgt pen op)
    _ = (0#9 ++ pos ++ 0#6 ++ tgt ++ pen).extractLsb' 8 7 := extract_append_hi _ op.code 16 7 (by decide)
    _ = (0#9 ++ pos ++ 0#6 ++ tgt).extractLsb' 7 7 := extract_append_hi _ pen 8 7 (by decide)
    _ = (0#9 ++ pos ++ 0#6).extractLsb' 6 7 := extract_append_hi _ tgt 7 7 (by decide)
    _ = pos := extract_middle 0#9 pos 0#6

theorem penBit_encodeX (pos : BitVec 7) (tgt pen : BitVec 1) (op : Opcode) :
    (encodeX pos tgt pen op).getLsbD 8 = pen.getLsbD 0 :=
  calc (encodeX pos tgt pen op).getLsbD 8
    _ = (0#9 ++ pos ++ 0#6 ++ tgt ++ pen).getLsbD 0 := getLsbD_append_hi _ op.code 0
    _ = pen.getLsbD 0 := BitVec.getLsbD_append

theorem tgtBit_encodeX (pos : BitVec 7) (tgt pen : BitVec 1) (op : Opcode) :
    (encodeX pos tgt pen op).getLsbD 9 = tgt.getLsbD 0 :=
  calc (encodeX pos tgt pen op).getLsbD 9
    _ = (0#9 ++ pos ++ 0#6 ++ tgt ++ pen).getLsbD 1 := getLsbD_append_hi _ op.code 1
    _ = (0#9 ++ pos ++ 0#6 ++ tgt).getLsbD 0 := getLsbD_append_hi _ pen 0
    _ = tgt.getLsbD 0 := BitVec.getLsbD_append

theorem target_ofBit_code (tgt : Target) : Target.ofBit (tgt.code.getLsbD 0) = tgt := by
  cases tgt <;> rfl

/-- The encoding of a command matches the command's row of the map. -/
theorem matches_encode (h : i.wellFormed = true) : Matches i.opcode (encode i) := by
  cases i with
  | nop => exact Laws.MaskMatch.nop h
  | ksched => exact Laws.MaskMatch.ksched h
  | encrypt pen tgt pos => exact Laws.MaskMatch.encrypt pen tgt pos h
  | permute t => exact Laws.MaskMatch.permute t h
  | rotl28 n => exact Laws.MaskMatch.rotl28 n h
  | xor wa wb => exact Laws.MaskMatch.xor wa wb h
  | sbox box => exact Laws.MaskMatch.sbox box h
  | feval => exact Laws.MaskMatch.feval h
  | hdist wa wb => exact Laws.MaskMatch.hdist wa wb h
  | anClear => exact Laws.MaskMatch.anClear h
  | anBase => exact Laws.MaskMatch.anBase h
  | anAcc => exact Laws.MaskMatch.anAcc h

/-- The fields of a well-formed command's encoding hold its operands. -/
theorem hasOperands_encode (h : i.wellFormed = true) : HasOperands i (encode i) := by
  cases i with
  | encrypt pen tgt pos =>
    have hpos : pos < 128 := of_decide_eq_true h
    refine ⟨?_, ?_, ?_⟩
    · exact (penBit_encodeX _ _ _ _).trans (by cases pen <;> rfl)
    · exact (congrArg Target.ofBit (tgtBit_encodeX _ _ _ _)).trans (target_ofBit_code tgt)
    · simp [encode, Nat.mod_eq_of_lt hpos]
  | rotl28 n =>
    have hn : n < 32 := of_decide_eq_true h
    simp [HasOperands, encode, Nat.mod_eq_of_lt hn]
  | permute | xor | sbox | hdist => simp [HasOperands, encode]
  | nop | ksched | feval | anClear | anBase | anAcc => trivial

/-- Settles O1: the encoding matches its command's row, and its fields hold the command's operands. -/
theorem decodeOfEncodeIsTheCommand : Obligations.DecodeOfEncodeIsTheCommand := by
  intro i h
  exact decode_eq_ok.mpr ⟨matches_encode h, hasOperands_encode h⟩

/-! ## One word for each command -/

/-- Words that agree in a field agree in its bits. -/
theorem getLsbD_eq_of_extract {start len j : Nat} (h : w.extractLsb' start len = w'.extractLsb' start len) (hs : start ≤ j)
    (hj : j < start + len) : w.getLsbD j = w'.getLsbD j := by
  have hbit := congrArg (·.getLsbD (j - start)) h
  simpa [show j - start < len by omega, Nat.add_sub_cancel' hs] using hbit

/-- Formats T and B have one field, bits 10:8 (R114, R120). -/
theorem eq_of_lowSelector (hmask : op.mask = 0xFFFFF8FF) (h : Matches op w) (h' : Matches op w')
    (hsel : lowSelector w = lowSelector w') : w = w' := by
  have hbits : ∀ j < 32, (0xFFFFF8FF : Word).getLsbD j = false → 8 ≤ j ∧ j < 8 + 3 := by decide
  refine eq_of_matches h h' fun j hj hfree => ?_
  obtain ⟨hlo, hhi⟩ := hbits j hj (hmask ▸ hfree)
  exact getLsbD_eq_of_extract hsel hlo hhi

/-- Format W has two fields, bits 10:8 and 14:12 (R116). -/
theorem eq_of_selectors (hmask : op.mask = 0xFFFF88FF) (h : Matches op w) (h' : Matches op w')
    (hlow : lowSelector w = lowSelector w') (hhigh : highSelector w = highSelector w') : w = w' := by
  have hbits : ∀ j < 32, (0xFFFF88FF : Word).getLsbD j = false →
      (8 ≤ j ∧ j < 8 + 3) ∨ (12 ≤ j ∧ j < 12 + 3) := by decide
  refine eq_of_matches h h' fun j hj hfree => ?_
  obtain ⟨hlo, hhi⟩ | ⟨hlo, hhi⟩ := hbits j hj (hmask ▸ hfree)
  · exact getLsbD_eq_of_extract hlow hlo hhi
  · exact getLsbD_eq_of_extract hhigh hlo hhi

/-- Format S has one field, bits 12:8 (R115). -/
theorem eq_of_amountField (h : Matches .rotl28 w) (h' : Matches .rotl28 w') (hn : amountField w = amountField w') : w = w' := by
  have hbits : ∀ j < 32, Opcode.rotl28.mask.getLsbD j = false → 8 ≤ j ∧ j < 8 + 5 := by decide
  refine eq_of_matches h h' fun j hj hfree => ?_
  obtain ⟨hlo, hhi⟩ := hbits j hj hfree
  exact getLsbD_eq_of_extract hn hlo hhi

/-- Format X has three fields, PEN in bit 8, TGT in bit 9 and POS in bits 22:16 (R113). -/
theorem eq_of_encryptFields (h : Matches .encrypt w) (h' : Matches .encrypt w') (hpen : w.getLsbD 8 = w'.getLsbD 8)
    (htgt : w.getLsbD 9 = w'.getLsbD 9) (hpos : posField w = posField w') : w = w' := by
  have hbits : ∀ j < 32, Opcode.encrypt.mask.getLsbD j = false → j = 8 ∨ j = 9 ∨ (16 ≤ j ∧ j < 16 + 7) := by decide
  refine eq_of_matches h h' fun j hj hfree => ?_
  obtain rfl | rfl | ⟨hlo, hhi⟩ := hbits j hj hfree
  · exact hpen
  · exact htgt
  · exact getLsbD_eq_of_extract hpos hlo hhi

/-- Format N has no field: its mask leaves no bit free (R112). -/
theorem eq_of_fullMask (hmask : op.mask = 0xFFFFFFFF) (h : Matches op w) (h' : Matches op w') : w = w' := by
  have hbits : ∀ j < 32, (0xFFFFFFFF : Word).getLsbD j ≠ false := by decide
  exact eq_of_matches h h' fun j hj hfree => absurd (hmask ▸ hfree) (hbits j hj)

theorem target_ofBit_injective : Function.Injective Target.ofBit := by
  unfold Function.Injective
  decide

/-- Two words that decode to one command are the same word. -/
theorem decode_injective (h : decode w = .ok i) (h' : decode w' = .ok i) : w = w' := by
  obtain ⟨hm, hops⟩ := decode_eq_ok.mp h
  obtain ⟨hm', hops'⟩ := decode_eq_ok.mp h'
  cases i with
  | encrypt pen tgt pos =>
    obtain ⟨hpen, htgt, hpos⟩ := hops
    obtain ⟨hpen', htgt', hpos'⟩ := hops'
    exact eq_of_encryptFields hm hm' (hpen.trans hpen'.symm) (target_ofBit_injective (htgt.trans htgt'.symm))
      (BitVec.eq_of_toNat_eq (hpos.trans hpos'.symm))
  | permute t => exact eq_of_lowSelector rfl hm hm' (hops.symm.trans hops')
  | sbox box => exact eq_of_lowSelector rfl hm hm' (BitVec.toFin_inj.mp (hops.trans hops'.symm))
  | rotl28 n => exact eq_of_amountField hm hm' (BitVec.eq_of_toNat_eq (hops.trans hops'.symm))
  | xor wa wb | hdist wa wb =>
    obtain ⟨hlow, hhigh⟩ := hops
    obtain ⟨hlow', hhigh'⟩ := hops'
    exact eq_of_selectors rfl hm hm' (hlow.symm.trans hlow') (hhigh.symm.trans hhigh')
  | nop | ksched | feval | anClear | anBase | anAcc => exact eq_of_fullMask rfl hm hm'

/-- Settles O2: the word and the encoding of its command decode to one command, so they are one word. -/
theorem encodeOfDecodeIsTheWord : Obligations.EncodeOfDecodeIsTheWord := by
  intro w i h
  have hwf : i.wellFormed = true := wellFormed_of_hasOperands (decode_eq_ok.mp h).2
  exact ⟨hwf, decode_injective (decodeOfEncodeIsTheCommand i hwf) h⟩

/-! ## The step of a decoded command -/

theorem engineStep_of_decode (hp : s.stepPos ≠ .idle) (hd : decode s.lcmd = .ok i) : engineStep s = exec i s := by
  simp [engineStep, hp, hd]

theorem engineStep_of_reject {r : Reject} (hp : s.stepPos ≠ .idle) (hd : decode s.lcmd = .error r) :
    engineStep s = .next (complete .illegalCmd s) := by
  simp [engineStep, hp, hd]

/-- With no event to come the engine steps (R346). -/
theorem step_of_agenda_nil (h : s.agenda = []) : step s = engineStep s := by
  simp [step, nextEvent, h, perform]

theorem step_engine {rest : List Event} (h : s.agenda = .engine :: rest) :
    step s = engineStep { s with agenda := rest } := by
  simp [step, nextEvent, h, perform]

/-- Settles O3: a decoded word matches its command's row alone, and a rejected one completes with ILLEGAL_CMD. -/
theorem everyWordSelectsOneCommandOrIsIllegal : Obligations.EveryWordSelectsOneCommandOrIsIllegal := by
  intro s hp
  cases hd : decode s.lcmd with
  | ok i =>
    have hm : Matches i.opcode s.lcmd := (decode_eq_ok.mp hd).1
    exact .inl ⟨i, rfl, hm, fun op hop => matches_unique hop hm, engineStep_of_decode hp hd⟩
  | error r => exact .inr ⟨⟨r, rfl⟩, engineStep_of_reject hp hd⟩

/-- Settles O4: each word is a fixed number, and the decoder is evaluated on it. -/
theorem specifiedWordsDecode : Obligations.SpecifiedWordsDecode := by
  unfold Obligations.SpecifiedWordsDecode
  decide

/-- Settles O5: the step's event is the engine's, and an engine step runs the command LCMD decodes to. -/
theorem stepRunsTheDecodedCommand : Obligations.StepRunsTheDecodedCommand := by
  intro s i hp hd
  constructor
  · intro ha
    rw [step_of_agenda_nil ha, engineStep_of_decode hp hd]
  · intro rest ha
    exact (step_engine ha).trans (engineStep_of_decode hp hd)

end Sys2Proof.Proofs

/-! The commands of the bit-vector primitives and the hexadecimal text of the host boundary (40_bitvector.md). -/

namespace Sys2Proof.Proofs

open Sys2Proof.Machine Sys2Proof.Safety

/-! ## Operands and results -/

/-- An operand's bits: the register's below the width, 0 above it (30_encoding.md rule R118). -/
theorem getLsbD_operand (w : Nat) (reg : Block) (k : Nat) :
    (operand w reg).getLsbD k = (decide (k < w) && reg.getLsbD k) := by
  rw [operand, BitVec.getLsbD_setWidth]

/-- RES holds the result's bits right-aligned, 0 above them (30_encoding.md rule R119). -/
theorem getLsbD_placeResult {w : Nat} (hw : w ≤ 64) (v : BitVec w) (k : Nat) :
    (placeResult v).getLsbD k = v.getLsbD k := by
  rw [placeResult, BitVec.getLsbD_setWidth, Bool.and_eq_right_iff_imp, decide_eq_true_iff]
  intro h
  have hk : k < w := BitVec.lt_of_getLsbD h
  omega

theorem getLsbD_placeResult_of_ge {w k : Nat} (hw : w ≤ 64) (v : BitVec w) (hk : w ≤ k) :
    (placeResult v).getLsbD k = false := by
  rw [getLsbD_placeResult hw, BitVec.getLsbD_of_ge v k hk]

theorem width_bits_le (w : Width) : w.bits ≤ 64 := by
  cases w <;> decide

/-! ## What each command answers -/

theorem exec_nop (s : State) : exec .nop s = .next (complete .none s) := rfl

theorem exec_permute (t : Table) (s : State) :
    exec (.permute t) s = .next (finished .none { s with res := applyTable t s.opa }) := rfl

theorem exec_rotl28 (n : Nat) (s : State) :
    exec (.rotl28 n) s = .next (finished .none { s with res := placeResult (rotl (operand 28 s.opa) (n % 28)) }) := rfl

theorem exec_xor_self (w : Width) (s : State) :
    exec (.xor w w) s =
      .next (finished .none { s with res := placeResult (operand w.bits s.opa ^^^ operand w.bits s.opb) }) := by
  simp [exec, execXor]

theorem exec_xor_of_ne {wa wb : Width} (h : wa ≠ wb) (s : State) :
    exec (.xor wa wb) s = .next (complete .lengthMismatch s) := by
  simp [exec, execXor, h]

theorem exec_hdist_of_ne {wa wb : Width} (h : wa ≠ wb) (s : State) :
    exec (.hdist wa wb) s = .next (complete .lengthMismatch s) := by
  simp [exec, execHdist, h]

/-! ## PERMUTE -/

/-- `v` is what a table of these entries, applied to the low `w` bits of OPA, leaves in RES. -/
def MovesBits (entries : List Nat) (w : Nat) (opa v : Block) : Prop :=
  (∀ j, j < entries.length → v.getLsbD (entries.length - 1 - j) = opa.getLsbD (w - entries.getD j 0)) ∧
    ∀ k, entries.length ≤ k → v.getLsbD k = false

/-- An in-range table moves its operand's bits only, so the operand's zero extension is not seen. -/
theorem movesBits_placeResult_permute {n w : Nat} {T : PermTable n} (hT : TableInRange T w) (hn : n ≤ 64) (opa : Block) :
    MovesBits T.toList w opa (placeResult (permute T (operand w opa))) := by
  rw [MovesBits, Vector.length_toList]
  refine ⟨fun j hj => ?_, fun k hk => getLsbD_placeResult_of_ge hn _ hk⟩
  have hbelow : w - T.toList.getD j 0 < w := by
    obtain ⟨hpos, hle⟩ := hT j hj
    rw [toList_getD T hj]
    omega
  rw [getLsbD_placeResult hn, getLsbD_permute T _ hT hj, getLsbD_operand, decide_eq_true hbelow, Bool.true_and]

theorem movesBits_applyTable (t : Table) (opa : Block) : MovesBits (entries t) (inWidth t) opa (applyTable t opa) := by
  cases t with
  | ip => exact movesBits_placeResult_permute tableIP_inRange (by decide) opa
  | ipInv => exact movesBits_placeResult_permute tableIPInv_inRange (by decide) opa
  | e => exact movesBits_placeResult_permute tableE_inRange (by decide) opa
  | p => exact movesBits_placeResult_permute tableP_inRange (by decide) opa
  | pc1 => exact movesBits_placeResult_permute tablePC1_inRange (by decide) opa
  | pc2 => exact movesBits_placeResult_permute tablePC2_inRange (by decide) opa

/-- Settles O12, by the six tables, each of which lies in the range of its operand. -/
theorem permuteMovesTheTablesBits : Obligations.PermuteMovesTheTablesBits := fun t s =>
  ⟨applyTable t s.opa, exec_permute t s, movesBits_applyTable t s.opa⟩

/-! ## ROTL28 -/

/-- A rotation in register bits: result bit w-1-i is operand bit w-1-(i+n) mod w. -/
theorem getLsbD_rotl {w i : Nat} (b : BitVec w) (n : Nat) (h : i < w) :
    (rotl b n).getLsbD (w - 1 - i) = b.getLsbD (w - 1 - (i + n) % w) := by
  have hmod : (i + n) % w < w := Nat.mod_lt _ (by omega)
  have hmsb := getMsbD_rotl b n i h
  simpa only [BitVec.getMsbD, h, hmod, decide_true, Bool.true_and] using hmsb

/-- Settles O13: the bit a 28-bit rotation leads to lies in OPA[27:0]. -/
theorem rotl28RotatesModulo28 : Obligations.Rotl28RotatesModulo28 := by
  intro n s
  refine ⟨_, exec_rotl28 n s, fun i hi => ?_, fun k hk => getLsbD_placeResult_of_ge (by decide) _ hk⟩
  have hbelow : 27 - (i + n) % 28 < 28 := by omega
  have hrot := getLsbD_rotl (operand 28 s.opa) (n % 28) hi
  rw [Nat.add_mod_mod, getLsbD_operand, decide_eq_true hbelow, Bool.true_and] at hrot
  exact (getLsbD_placeResult (by decide) _ _).trans hrot

/-! ## XOR and unequal widths -/

/-- Settles O14: a bit of RES is the exclusive-or of the operands' bits, and both operands are 0 from the width up. -/
theorem xorOfOneWidth : Obligations.XorOfOneWidth := by
  intro w s
  refine ⟨_, exec_xor_self w s, fun k => ?_⟩
  rw [getLsbD_placeResult (width_bits_le w), BitVec.getLsbD_xor, getLsbD_operand, getLsbD_operand,
    Bool.and_xor_distrib_left]

/-- Settles O15: both commands compare their widths before anything else. -/
theorem unequalWidthsRaiseLengthMismatch : Obligations.UnequalWidthsRaiseLengthMismatch := fun _ _ s h =>
  ⟨exec_xor_of_ne h s, exec_hdist_of_ne h s⟩

/-! ## NOP -/

/-- Settles O11: NOP is its completion. -/
theorem nopOnlyCompletes : Obligations.NopOnlyCompletes := exec_nop

/-! ## Hexadecimal text -/

theorem hexDigitValue_hexDigit {v : Nat} (h : v < 16) : hexDigitValue (hexDigit v) = some v := by
  decide +revert

theorem isSeparator_hexDigit {v : Nat} (h : v < 16) : isSeparator (hexDigit v) = false := by
  decide +revert

theorem isSeparator_of_mem_hexDigits {n v : Nat} {ch : Char} (h : ch ∈ hexDigits n v) : isSeparator ch = false := by
  induction n generalizing v with
  | zero => simp [hexDigits] at h
  | succ n ih =>
    rw [hexDigits, List.mem_append, List.mem_singleton] at h
    obtain h | rfl := h
    · exact ih h
    · exact isSeparator_hexDigit (Nat.mod_lt v (by decide))

theorem hexNumber_append_singleton (digits : List Char) (ch : Char) :
    hexNumber (digits ++ [ch]) = (hexNumber digits).bind fun n => (hexDigitValue ch).map fun v => 16 * n + v := by
  rw [hexNumber, List.foldl_append]
  rfl

/-- The last `n` digits of a number are read as the number modulo 16^n. -/
theorem hexNumber_hexDigits (n v : Nat) : hexNumber (hexDigits n v) = some (v % 16 ^ n) := by
  induction n generalizing v with
  | zero => simp [hexDigits, hexNumber, Nat.mod_one]
  | succ n ih =>
    have hdigit : hexDigitValue (hexDigit (v % 16)) = some (v % 16) := hexDigitValue_hexDigit (Nat.mod_lt v (by decide))
    have hsplit : 16 * (v / 16 % 16 ^ n) + v % 16 = v % 16 ^ (n + 1) := by
      rw [Nat.pow_succ', Nat.mod_mul, Nat.add_comm]
    rw [hexDigits, hexNumber_append_singleton, ih, hdigit, ← hsplit]
    rfl

/-- A text of digits alone is read as its number. -/
theorem hexToBits_of_hexNumber {hex : List Char} {n : Nat} (w : Nat) (hsep : ∀ ch ∈ hex, isSeparator ch = false)
    (hne : hex ≠ []) (hn : hexNumber hex = some n) : hexToBits hex w = .ok (BitVec.ofNat w n) := by
  have hfilter : hex.filter (fun ch => !isSeparator ch) = hex :=
    List.filter_eq_self.mpr fun ch hch => by rw [hsep ch hch, Bool.not_false]
  simp [hexToBits, hfilter, hne, hn]

theorem hexToBits_hexDigits {n : Nat} (hn : 0 < n) (w v : Nat) :
    hexToBits (hexDigits n v) w = .ok (BitVec.ofNat w (v % 16 ^ n)) := by
  have hne : hexDigits n v ≠ [] := by
    obtain ⟨m, rfl⟩ := Nat.exists_eq_succ_of_ne_zero hn.ne'
    simp [hexDigits]
  exact hexToBits_of_hexNumber w (fun _ => isSeparator_of_mem_hexDigits) hne (hexNumber_hexDigits n v)

/-- A width that is a multiple of 4 takes no padding: its text is the digits of the value. -/
theorem bitsToHex_of_multiple {m : Nat} (b : BitVec (4 * m)) : bitsToHex b = hexDigits m b.toNat := by
  have hpad : rightPadding (4 * m) = 0 := by simp [rightPadding]
  rw [bitsToHex, hpad, Nat.add_zero, Nat.mul_div_cancel_left m (by decide), Nat.pow_zero, Nat.mul_one]

/-- Settles O60: with no padding the digits are the value's own and 16^(w/4) = 2^w; at width 6 the two padding bits are read back
as bits of the value. -/
theorem hexTextRoundTrip : Obligations.HexTextRoundTrip := by
  refine ⟨fun w b hw h4 => ?_, by decide, by decide⟩
  obtain ⟨m, rfl⟩ := Nat.dvd_of_mod_eq_zero h4
  have hlt : b.toNat < 16 ^ m := b.isLt.trans_eq (Nat.pow_mul 2 4 m)
  rw [bitsToHex_of_multiple, hexToBits_hexDigits (by omega), Nat.mod_eq_of_lt hlt, BitVec.ofNat_toNat, BitVec.setWidth_eq]

end Sys2Proof.Proofs

/-! The key schedule (41_key_schedule.md): both halves are rotations of PC-1's, so a subkey bit is a key bit, and no key bit that
PC-1 drops is seen. -/

namespace Sys2Proof.Proofs

open Sys2Proof.Machine Sys2Proof.Safety

variable {key key' : Block}

/-! ## The halves -/

/-- A rotation by whole turns moves no bit. -/
theorem rotl_of_dvd {w n : Nat} (b : BitVec w) (h : w ∣ n) : rotl b n = b := by
  refine eq_of_getMsbD fun i hi => ?_
  obtain ⟨turns, rfl⟩ := h
  rw [getMsbD_rotl b _ i hi, Nat.add_mul_mod_self_left, Nat.mod_eq_of_lt hi]

/-- The first halves are PC-1 of the key, split (R183). -/
theorem keyHalves_zero (key : Block) :
    keyHalves key 0 = (slice (permute tablePC1 key) 0 28, slice (permute tablePC1 key) 28 28) := rfl

/-- A round rotates both halves by its entry of SHIFT (R184). -/
theorem keyHalves_succ (key : Block) (r : Round) :
    keyHalves key (r.val + 1) =
      (rotl (keyHalves key r.val).1 shiftSchedule[r], rotl (keyHalves key r.val).2 shiftSchedule[r]) := by
  simp [keyHalves]

theorem totalShift_zero : totalShift 0 = 0 := rfl

/-- The rotations add up: after r rounds the halves are the first ones rotated by the shifts' total. -/
theorem keyHalves_eq_rotl (key : Block) {r : Nat} (hr : r ≤ 16) :
    keyHalves key r = (rotl (keyHalves key 0).1 (totalShift r), rotl (keyHalves key 0).2 (totalShift r)) := by
  induction r with
  | zero => rw [totalShift_zero, rotl_of_dvd _ (dvd_zero 28), rotl_of_dvd _ (dvd_zero 28)]
  | succ r ih =>
    have hsucc := keyHalves_succ key ⟨r, hr⟩
    have htotal := totalShift_succ ⟨r, hr⟩
    rw [hsucc, htotal, ih (Nat.le_of_succ_le hr), rotl_rotl, rotl_rotl]

theorem totalShift_sixteen : totalShift 16 = 28 := by decide

/-- The sixteen shifts are one whole turn of a 28-bit half. -/
theorem keyHalves_sixteen (key : Block) : keyHalves key 16 = keyHalves key 0 := by
  rw [keyHalves_eq_rotl key le_rfl, totalShift_sixteen, rotl_of_dvd _ dvd_rfl, rotl_of_dvd _ dvd_rfl]

/-- Settles O20: a round's rotation, its cumulative form, and the whole turn after round 16. -/
theorem keyHalvesRotateAndReturn : Obligations.KeyHalvesRotateAndReturn := by
  intro key
  refine ⟨fun r => ?_, fun r hr => ?_, totalShift_sixteen, keyHalves_sixteen key⟩
  · exact Prod.ext_iff.mp (keyHalves_succ key r)
  · exact Prod.ext_iff.mp (keyHalves_eq_rotl key hr)

/-! ## The bits of the halves and of the subkeys -/

theorem getMsbD_permute_toList {w n j : Nat} (T : PermTable n) (b : BitVec w) (hj : j < n) :
    (permute T b).getMsbD j = b.getMsbD (T.toList.getD j 0 - 1) := by
  rw [getMsbD_permute T b hj, toList_getD T hj]

theorem getMsbD_keyHalves_zero_fst (key : Block) {j : Nat} (hj : j < 28) :
    (keyHalves key 0).1.getMsbD j = key.getMsbD (tablePC1.toList.getD j 0 - 1) := by
  rw [keyHalves_zero, getMsbD_slice _ (by decide) hj, Nat.zero_add, getMsbD_permute_toList _ _ (by omega)]

theorem getMsbD_keyHalves_zero_snd (key : Block) {j : Nat} (hj : j < 28) :
    (keyHalves key 0).2.getMsbD j = key.getMsbD (tablePC1.toList.getD (28 + j) 0 - 1) := by
  rw [keyHalves_zero, getMsbD_slice _ (by decide) hj, getMsbD_permute_toList _ _ (by omega)]

/-- The index of PC-1's result that index q of the joined halves C_r || D_r holds: q rotated within its own half (R183, R184). -/
def pc1Index (r q : Nat) : Nat :=
  if q < 28 then (q + totalShift r) % 28 else 28 + (q - 28 + totalShift r) % 28

theorem getMsbD_joinedHalves (key : Block) {r q : Nat} (hr : r ≤ 16) (hq : q < 56) :
    ((keyHalves key r).1 ++ (keyHalves key r).2).getMsbD q = key.getMsbD (tablePC1.toList.getD (pc1Index r q) 0 - 1) := by
  have hmod (n : Nat) : n % 28 < 28 := Nat.mod_lt _ (by decide)
  rw [keyHalves_eq_rotl key hr, getMsbD_append, pc1Index]
  split
  case isTrue hC => rw [getMsbD_rotl _ _ _ hC, getMsbD_keyHalves_zero_fst key (hmod _)]
  case isFalse hD => rw [getMsbD_rotl _ _ _ (by omega), getMsbD_keyHalves_zero_snd key (hmod _)]

/-- A subkey bit is the bit of the joined halves that PC-2 names, hence a key bit (R185). -/
theorem getMsbD_schedule (key : Block) (r : Round) {j : Nat} (hj : j < 48) :
    (schedule key)[r].getMsbD j =
      key.getMsbD (tablePC1.toList.getD (pc1Index (r.val + 1) (tablePC2.toList.getD j 0 - 1)) 0 - 1) := by
  have hq : tablePC2.toList.getD j 0 - 1 < 56 := by
    have hle := (tablePC2_inRange j hj).2
    rw [toList_getD tablePC2 hj]
    omega
  rw [schedule_getElem, subkeyOf, getMsbD_permute_toList _ _ hj, getMsbD_joinedHalves key r.isLt hq]

/-! ## KSCHED -/

theorem exec_ksched (s : State) : exec .ksched s = .next (complete .none (loadSchedule s.key s)) := rfl

/-- Settles O19: KSCHED loads the schedule of KEY, whose halves after round 16 are PC-1's. -/
theorem kschedSelectsKeyBits : Obligations.KschedSelectsKeyBits := by
  intro s
  refine ⟨_, exec_ksched s, rfl, fun r j hj => ?_, fun j hj => ?_⟩
  · rw [complete_sk, loadSchedule_sk]
    exact getMsbD_schedule s.key r hj
  · rw [complete_c, complete_d, loadSchedule_c, loadSchedule_d, keyHalves_sixteen]
    exact ⟨getMsbD_keyHalves_zero_fst s.key hj, getMsbD_keyHalves_zero_snd s.key hj⟩

/-! ## The parity bits -/

/-- The two keys agree outside the parity positions, the key bits 8, 16, ..., 64 (R187). -/
def AgreeOffParity (key' key : Block) : Prop := ∀ j, j < 64 → j % 8 ≠ 7 → key'.getMsbD j = key.getMsbD j

/-- PC-1 selects no parity position. -/
theorem tablePC1_ne_parity : ∀ j (h : j < 56), (tablePC1[j] - 1) % 8 ≠ 7 := by decide +kernel

theorem permute_tablePC1_of_agree (h : AgreeOffParity key' key) : permute tablePC1 key' = permute tablePC1 key := by
  refine eq_of_getMsbD fun j hj => ?_
  have hle := (tablePC1_inRange j hj).2
  rw [getMsbD_permute _ _ hj, getMsbD_permute _ _ hj, h _ (by omega) (tablePC1_ne_parity j hj)]

/-- PC-1 is the only place the key enters the schedule. -/
theorem keyHalves_of_agree (h : AgreeOffParity key' key) (r : Nat) : keyHalves key' r = keyHalves key r := by
  induction r with
  | zero => rw [keyHalves_zero, keyHalves_zero, permute_tablePC1_of_agree h]
  | succ r ih => simp only [keyHalves, ih]

theorem schedule_of_agree (h : AgreeOffParity key' key) : schedule key' = schedule key := by
  refine Vector.ext fun r hr => ?_
  have hround (k : Block) : (schedule k)[r] = subkeyOf (keyHalves k (r + 1)) := schedule_getElem k ⟨r, hr⟩
  rw [hround, hround, keyHalves_of_agree h]

theorem desHalves_of_agree (h : AgreeOffParity key' key) (pt : Block) (n : Nat) : desHalves key' pt n = desHalves key pt n := by
  induction n with
  | zero => rfl
  | succ n ih => rw [desHalves_succ, desHalves_succ, ih, keyHalves_of_agree h]

/-- Flipping a parity bit changes no other bit. -/
theorem agreeOffParity_flip (key : Block) {p : Nat} (hp : 1 ≤ p) (hp' : p ≤ 64) (h8 : p % 8 = 0) :
    AgreeOffParity (key ^^^ flipMask p) key := by
  intro j hj hparity
  have hne : j + 1 ≠ p := by omega
  rw [BitVec.getMsbD_xor, getMsbD_flipMask hp hp' hj, decide_eq_false hne, Bool.xor_false]

/-- Settles O21: a flip of a parity bit is one case of keys that agree outside the parity positions. -/
theorem parityPositionsDoNotMatter : Obligations.ParityPositionsDoNotMatter := by
  refine fun key => ⟨fun key' h => schedule_of_agree h, fun p pt hp hp' h8 => ?_⟩
  have hhalves := desHalves_of_agree (agreeOffParity_flip key hp hp' h8) pt
  have htrace (r : Round) : desTrace (key ^^^ flipMask p) pt r = desTrace key pt r := by
    rw [desTrace, desTrace, hhalves]
  refine ⟨by rw [desEncrypt, desEncrypt, hhalves], fun r => ⟨htrace r, ?_⟩⟩
  rw [htrace, hd_self]

end Sys2Proof.Proofs

/-! The round function F (42_round_function.md): SBOX and FEVAL, the mixed input F depends on, and what complementing the key
and the plaintext does to the cipher. -/

namespace Sys2Proof.Proofs

open Sys2Proof.Machine Sys2Proof.Safety

/-! ## SBOX -/

theorem exec_sbox (box : Fin 8) (s : State) :
    exec (.sbox box) s = .next (finished .none { s with res := placeResult (sbox box (operand 6 s.opa)) }) := rfl

/-- The row is `2*c[0] + c[5]` (R214). -/
theorem sboxRow_val (x : BitVec 6) : (sboxRow x).val = 2 * (x.getLsbD 5).toNat + (x.getLsbD 0).toNat := by
  decide +revert

/-- The column is `c[1..4]` (R214). -/
theorem sboxCol_val (x : BitVec 6) : (sboxCol x).val = x.toNat / 2 % 16 := by
  simp [sboxCol, slice, Nat.shiftRight_eq_div_pow]

/-- Every entry of the S-boxes fits in 4 bits (R211). -/
theorem sboxes_lt (box : Fin 8) (row : Fin 4) (col : Fin 16) : sboxes[box][row][col] < 16 := by
  revert box row col
  decide +kernel

/-- RES holds the entry itself: none is cut off by the 4 bits of an S-box's output. -/
theorem placeResult_sbox (box : Fin 8) (x : BitVec 6) :
    placeResult (sbox box x) = BitVec.ofNat 64 sboxes[box][sboxRow x][sboxCol x] := by
  have hlt := sboxes_lt box (sboxRow x) (sboxCol x)
  exact BitVec.setWidth_ofNat_of_le_of_lt (by decide) hlt

/-- Settles O16: row and column depend on OPA[5:0] alone, and the entry reaches RES whole. -/
theorem sboxLooksUpRowAndColumn : Obligations.SboxLooksUpRowAndColumn := by
  intro box s
  refine ⟨sboxRow (operand 6 s.opa), sboxCol (operand 6 s.opa), ?_, ?_, ?_⟩
  · rw [sboxRow_val, getLsbD_operand, getLsbD_operand]
    rfl
  · rw [sboxCol_val, operand, BitVec.toNat_setWidth]
    omega
  · rw [exec_sbox, placeResult_sbox]

/-! ## FEVAL -/

theorem exec_feval (s : State) :
    exec .feval s =
      .next (finished .none { s with res := placeResult (roundF (operand 32 s.opa) (operand 48 s.opb)) }) := rfl

/-- Expansion and key mixing in register bits; the operands' zero extension is not seen (R213). -/
theorem getLsbD_mixKey_operand (opa opb : Block) {j : Nat} (hj : j < 48) :
    (mixKey (operand 32 opa) (operand 48 opb)).getLsbD (47 - j) =
      (opa.getLsbD (32 - tableE.toList.getD j 0) ^^ opb.getLsbD (47 - j)) := by
  have hbelow : 32 - tableE.toList.getD j 0 < 32 := by
    obtain ⟨hpos, hle⟩ := tableE_inRange j hj
    rw [toList_getD tableE hj]
    omega
  have hexpand := getLsbD_permute tableE (operand 32 opa) tableE_inRange hj
  rw [getLsbD_operand, decide_eq_true hbelow, Bool.true_and] at hexpand
  have hkey : 47 - j < 48 := by omega
  rw [mixKey, BitVec.getLsbD_xor, hexpand, getLsbD_operand, decide_eq_true hkey, Bool.true_and]

/-- Lanes 0 to `n` side by side, the first on the left. -/
def joinLanes (lane : Nat → BitVec 4) : (n : Nat) → BitVec (4 * (n + 1))
  | 0 => lane 0
  | n + 1 => joinLanes lane n ++ lane (n + 1)

/-- Lane `i` is read back where it stands, with the lanes after it on its right. -/
theorem extract_joinLanes (lane : Nat → BitVec 4) {i n : Nat} (h : i ≤ n) :
    (joinLanes lane n).extractLsb' (4 * (n - i)) 4 = lane i := by
  induction n with
  | zero =>
    obtain rfl : i = 0 := by omega
    exact BitVec.extractLsb'_eq_self
  | succ n ih =>
    obtain rfl | hle := Nat.le_succ_iff_eq_or_le.mp h
    · rw [Nat.sub_self, joinLanes]
      exact (extract_append_lo _ _ 0 4 le_rfl).trans BitVec.extractLsb'_eq_self
    · rw [show 4 * (n + 1 - i) = 4 * (n - i) + 4 by omega, joinLanes]
      exact (extract_append_hi _ _ _ 4 (by omega)).trans (ih hle)

/-- The lookup array is its eight lanes side by side (R215). -/
theorem sboxArray_eq_joinLanes (x : BitVec 48) :
    sboxArray x = joinLanes (fun i => sbox (Fin.ofNat 8 i) (slice x (6 * i) 6)) 7 := rfl

theorem extract_sboxArray (x : BitVec 48) (i : Fin 8) :
    (sboxArray x).extractLsb' (28 - 4 * i.val) 4 = sbox i (x.extractLsb' (42 - 6 * i.val) 6) := by
  have hout : 28 - 4 * i.val = 4 * (7 - i.val) := by omega
  have hin : 48 - 6 * i.val - 6 = 42 - 6 * i.val := by omega
  rw [sboxArray_eq_joinLanes, hout, extract_joinLanes _ (by omega), Fin.ofNat_val_eq_self, slice, hin]

/-- Settles O17: the mixed input, the lookup array and P are the three stages. -/
theorem fevalIsExpandMixSubstitutePermute : Obligations.FevalIsExpandMixSubstitutePermute := by
  intro s
  refine ⟨mixKey (operand 32 s.opa) (operand 48 s.opb), sboxArray (mixKey (operand 32 s.opa) (operand 48 s.opb)), _,
    exec_feval s, fun j hj => getLsbD_mixKey_operand s.opa s.opb hj, extract_sboxArray _, fun j hj => ?_,
    fun k hk => getLsbD_placeResult_of_ge (by decide) _ hk⟩
  exact (getLsbD_placeResult (by decide) _ _).trans (getLsbD_permute tableP _ tableP_inRange hj)

/-! ## The mixed input -/

theorem roundF_of_mixKey {r r' : HalfBlock} {k k' : Subkey} (h : mixKey r k = mixKey r' k') : roundF r k = roundF r' k' := by
  rw [roundF, roundF, h]

/-- What the expansion adds, the key takes away. -/
theorem mixKey_translate (r m : HalfBlock) (k : Subkey) : mixKey (r ^^^ m) (k ^^^ permute tableE m) = mixKey r k := by
  rw [mixKey, mixKey, permute_xor, BitVec.xor_comm k, ← BitVec.xor_assoc, BitVec.xor_assoc (permute tableE r),
    BitVec.xor_self, BitVec.xor_zero]

/-- Complementing both inputs leaves their sum, so F is unchanged. -/
theorem roundF_not (r : HalfBlock) (k : Subkey) : roundF (~~~r) (~~~k) = roundF r k := by
  refine roundF_of_mixKey ?_
  rw [mixKey, mixKey, permute_not _ _ tableE_inRange, ← BitVec.not_xor_left, ← BitVec.not_xor_right, BitVec.not_not]

/-- The value on zeros, which 95_test_vectors.md V20 gives. -/
theorem roundF_zero : roundF 0x00000000 0x000000000000 = 0xD8D8DBBC := by decide +kernel

/-- Settles O18: the mixed input is all that F sees, and the all-ones inputs are the complements of the all-zeros ones. -/
theorem roundFunctionDependsOnMixedInputOnly : Obligations.RoundFunctionDependsOnMixedInputOnly :=
  ⟨fun _ _ _ _ h => roundF_of_mixKey h, fun r m k => roundF_of_mixKey (mixKey_translate r m k), roundF_zero,
    (roundF_not 0 0).trans roundF_zero⟩

/-! ## Complementation -/

/-- Both components complemented. -/
def notPair {w : Nat} (h : BitVec w × BitVec w) : BitVec w × BitVec w := (~~~h.1, ~~~h.2)

theorem getMsbD_not_of_lt {w i : Nat} (b : BitVec w) (h : i < w) : (~~~b).getMsbD i = !b.getMsbD i := by
  rw [BitVec.getMsbD_not, decide_eq_true h, Bool.true_and]

theorem slice_not {w : Nat} (b : BitVec w) {i len : Nat} (h : i + len ≤ w) : slice (~~~b) i len = ~~~(slice b i len) := by
  refine eq_of_getMsbD fun j hj => ?_
  rw [getMsbD_slice _ h hj, getMsbD_not_of_lt _ (by omega), getMsbD_not_of_lt _ hj, getMsbD_slice _ h hj]

theorem rotl_not {w : Nat} (b : BitVec w) (n : Nat) : rotl (~~~b) n = ~~~(rotl b n) := by
  refine eq_of_getMsbD fun i hi => ?_
  have hmod : (i + n) % w < w := Nat.mod_lt _ (by omega)
  rw [getMsbD_rotl _ _ _ hi, getMsbD_not_of_lt _ hmod, getMsbD_not_of_lt _ hi, getMsbD_rotl _ _ _ hi]

theorem keyHalves_not (key : Block) (r : Nat) : keyHalves (~~~key) r = notPair (keyHalves key r) := by
  induction r with
  | zero =>
    rw [keyHalves_zero, keyHalves_zero, permute_not _ _ tablePC1_inRange, slice_not _ (by decide), slice_not _ (by decide),
      notPair]
  | succ r ih => simp only [keyHalves, ih, notPair, rotl_not]

theorem subkeyOf_not (h : KeyHalf × KeyHalf) : subkeyOf (notPair h) = ~~~(subkeyOf h) := by
  rw [subkeyOf, subkeyOf, notPair, ← BitVec.not_append, permute_not _ _ tablePC2_inRange]

theorem initialHalves_not (pt : Block) : initialHalves (~~~pt) = notPair (initialHalves pt) := by
  simp [initialHalves, notPair, permute_not _ _ tableIP_inRange, slice_not]

/-- A round adds F to one half only, and F is the same: a round of complements is the complement of the round. -/
theorem feistelRound_not (h : HalfBlock × HalfBlock) (k : Subkey) :
    feistelRound (notPair h) (~~~k) = notPair (feistelRound h k) := by
  simp only [feistelRound, notPair, roundF_not, BitVec.not_xor_left]

theorem finalBlock_not (h : HalfBlock × HalfBlock) : finalBlock (notPair h) = ~~~(finalBlock h) := by
  rw [finalBlock, finalBlock, notPair, ← BitVec.not_append, permute_not _ _ tableIPInv_inRange]

theorem desHalves_not (key pt : Block) (n : Nat) : desHalves (~~~key) (~~~pt) n = notPair (desHalves key pt n) := by
  induction n with
  | zero => exact initialHalves_not pt
  | succ n ih => rw [desHalves, ih, keyHalves_not, subkeyOf_not, feistelRound_not, desHalves]

/-- Settles O31: every stage of the cipher turns complements into complements. -/
theorem complementationProperty : Obligations.ComplementationProperty := by
  intro key pt
  rw [desEncrypt, desHalves_not, finalBlock_not, desEncrypt]

end Sys2Proof.Proofs

/-! The Feistel controller (43_feistel.md): IP and its inverse, ENCRYPT's steps one by one and its whole run, and the cipher
registers along every run of the system. -/

namespace Sys2Proof.Proofs

open Sys2Proof.Machine Sys2Proof.Safety

variable {s t : State} {i : Instr} {pen : Bool} {tgt : Target} {pos n : Nat} {key pt : Block}

/-! ## The cipher registers at each position of STEP -/

/-- After FINAL the trace and CT are those of WKEY and WPT (R251, R253). -/
def FinalOk (s : State) : Prop :=
  s.fstate = .final → (∀ r : Round, s.trace[r] = desTrace s.wkey s.wpt r) ∧ s.ct = desEncrypt s.wkey s.wpt

/-- L, R and the trace entries so far are those of `n` rounds of the encryption of WPT under WKEY (R245, R251). -/
def RoundsOk (n : Nat) (s : State) : Prop :=
  (s.l, s.r) = desHalves s.wkey s.wpt n ∧ ∀ r : Round, r.val < n → s.trace[r] = desTrace s.wkey s.wpt r

/-- No command is past its first step. -/
def AtRest (s : State) : Prop := s.stepPos = .idle ∨ s.stepPos = .first

theorem cipherInv_iff_of_atRest (h : AtRest s) : CipherInv s ↔ FinalOk s := by
  rcases h with h | h <;> simp only [CipherInv, FinalOk, h]

theorem cipherInv_iff_of_round {r : Round} (h : s.stepPos = .round r) :
    CipherInv s ↔ s.sk = schedule s.wkey ∧ RoundsOk r.val s := by
  simp only [CipherInv, RoundsOk, h]

theorem cipherInv_iff_of_last (h : s.stepPos = .last) : CipherInv s ↔ RoundsOk 16 s := by
  simp [CipherInv, RoundsOk, h]

/-! ## What keeps them -/

/-- The cipher invariant speaks of neither BOVR nor the host's registers nor the model's own fields. -/
theorem cipherInv_of_frame (h : CipherInv s)
    (ht : t = { s with
      bovr := t.bovr, key := t.key, pt := t.pt, opa := t.opa, opb := t.opb, agenda := t.agenda, responses := t.responses,
      draws := t.draws }) : CipherInv t := by
  rw [ht]
  exact h

/-- Between two states at rest it is enough that the controller's registers stay. -/
theorem cipherInv_of_sameController (h : CipherInv s) (hs : AtRest s) (ht : AtRest t) (hsame : SameController s t) :
    CipherInv t := by
  obtain ⟨hf, htrace, -, hct, hwkey, hwpt⟩ := hsame
  rw [cipherInv_iff_of_atRest ht, FinalOk, hf, htrace, hct, hwkey, hwpt]
  exact (cipherInv_iff_of_atRest hs).mp h

/-- INITIAL starts the encryption of the new WPT under the new WKEY, with no round done. -/
theorem cipherInv_encryptInitial (pen : Bool) (tgt : Target) (pos : Nat) (s : State) :
    CipherInv (encryptInitial pen tgt pos s) :=
  (cipherInv_iff_of_round (encryptInitial_stepPos ..)).mpr ⟨rfl, rfl, fun _ hr => absurd hr (Nat.not_lt_zero _)⟩

/-- A ROUND step after the rounds before it has one round more done. -/
theorem roundsOk_encryptRound {r : Round} (hsk : s.sk = schedule s.wkey) (h : RoundsOk r.val s) :
    RoundsOk (r.val + 1) (encryptRound r s) := by
  obtain ⟨hhalves, htrace⟩ := h
  refine ⟨encryptRound_halves hsk hhalves, fun r' hr' => ?_⟩
  by_cases hrr : r' = r
  · rw [hrr]
    exact encryptRound_trace_self hsk hhalves
  · have hne : r'.val ≠ r.val := fun e => hrr (Fin.ext e)
    rw [encryptRound_trace_of_ne hrr]
    exact htrace r' (by omega)

/-- After a ROUND step that is not the sixteenth the next round is due. -/
theorem encryptRound_stepPos_of_lt {r : Round} (hr : r.val + 1 < 16) (s : State) :
    (encryptRound r s).stepPos = .round ⟨r.val + 1, hr⟩ := by
  simp [StepPos.next, hr]

theorem encryptRound_stepPos_fifteen (s : State) : (encryptRound 15 s).stepPos = .last := rfl

theorem cipherInv_encryptRound {r : Round} (h : CipherInv s) (hp : s.stepPos = .round r) : CipherInv (encryptRound r s) := by
  obtain ⟨hsk, hrounds⟩ := (cipherInv_iff_of_round hp).mp h
  have hdone := roundsOk_encryptRound hsk hrounds
  by_cases hr : r.val + 1 < 16
  · exact (cipherInv_iff_of_round (encryptRound_stepPos_of_lt hr s)).mpr ⟨hsk, hdone⟩
  · obtain rfl : r = 15 := Fin.ext (by simp; omega)
    exact (cipherInv_iff_of_last (encryptRound_stepPos_fifteen s)).mpr hdone

/-- FINAL leaves the ciphertext of the sixteen rounds' halves, beside their whole trace. -/
theorem cipherInv_encryptFinal (h : CipherInv s) (hp : s.stepPos = .last) : CipherInv (encryptFinal s) := by
  obtain ⟨hhalves, htrace⟩ := (cipherInv_iff_of_last hp).mp h
  refine (cipherInv_iff_of_atRest (.inl (encryptFinal_stepPos s))).mpr fun _ => ⟨fun r => htrace r r.isLt, ?_⟩
  rw [encryptFinal_ct, hhalves]
  rfl

/-! ## Every step keeps them -/

theorem sameController_refl (s : State) : SameController s s := ⟨rfl, rfl, rfl, rfl, rfl, rfl⟩

/-- A command's step completes it without the controller, or is one of ENCRYPT's steps. -/
theorem exec_completes_or_encrypts (h : exec i s = .next t) :
    (AtFirst i s ∧ t.stepPos = .idle ∧ SameController s t) ∨
    ∃ pen tgt pos, i = .encrypt pen tgt pos ∧
      ((s.stepPos = .idle ∧ t = s) ∨
        (s.stepPos = .first ∧ positionOk pen pos = true ∧ t = encryptInitial pen tgt pos s) ∨
        (∃ r, s.stepPos = .round r ∧ t = encryptRound r s) ∨
        (s.stepPos = .last ∧ t = encryptFinal s)) := by
  rcases exec_cases h with ⟨ha, e, rfl⟩ | ⟨ha, -, v, rfl⟩ | ⟨rfl, rfl⟩ | ⟨rfl, rfl⟩ | ⟨rfl, -, rfl⟩ | ⟨rfl, -, -, rfl⟩ | henc
  · exact .inl ⟨ha, rfl, sameController_refl s⟩
  · exact .inl ⟨ha, rfl, sameController_refl s⟩
  · exact .inl ⟨by simp [AtFirst], rfl, sameController_refl s⟩
  · exact .inl ⟨by simp [AtFirst], rfl, sameController_refl s⟩
  · exact .inl ⟨by simp [AtFirst], rfl, sameController_refl s⟩
  · exact .inl ⟨by simp [AtFirst], rfl, sameController_refl s⟩
  · exact .inr henc

/-- A running command that is no ENCRYPT past its first step is at its first step. -/
theorem first_of_atFirst (h : ControlInv s) (hd : decode s.lcmd = .ok i) (hp : s.stepPos ≠ .idle) (ha : AtFirst i s) :
    s.stepPos = .first := by
  obtain hf | ⟨pen, tgt, pos, hd', -⟩ := first_or_runsEncrypt h hp
  · exact hf
  · exact ha pen tgt pos (by simpa [hd] using hd')

theorem exec_keeps_cipherInv (hc : ControlInv s) (h : CipherInv s) (hd : decode s.lcmd = .ok i) (hp : s.stepPos ≠ .idle)
    (hx : exec i s = .next t) : CipherInv t := by
  rcases exec_completes_or_encrypts hx with ⟨ha, ht, hsame⟩ |
    ⟨pen, tgt, pos, -, ⟨hs, -⟩ | ⟨-, -, rfl⟩ | ⟨r, hs, rfl⟩ | ⟨hs, rfl⟩⟩
  · exact cipherInv_of_sameController h (.inr (first_of_atFirst hc hd hp ha)) (.inl ht) hsame
  · exact absurd hs hp
  · exact cipherInv_encryptInitial pen tgt pos s
  · exact cipherInv_encryptRound h hs
  · exact cipherInv_encryptFinal h hs

theorem engineStep_keeps_cipherInv (hc : ControlInv s) (h : CipherInv s) (hx : engineStep s = .next t) : CipherInv t := by
  rcases engineStep_cases hx with ⟨-, rfl⟩ | ⟨hp, ⟨r, hd⟩, rfl⟩ | ⟨hp, i, hd, hx⟩
  · exact h
  · obtain hf | ⟨_, _, _, hd', -⟩ := first_or_runsEncrypt hc hp
    · exact cipherInv_of_sameController h (.inr hf) (.inl rfl) (sameController_refl s)
    · simp [hd] at hd'
  · exact exec_keeps_cipherInv hc h hd hp hx

/-- An acceptance changes no register of the cipher, and only an idle engine accepts. -/
theorem cipherInv_accept (hc : ControlInv s) (h : CipherInv s) (hb : s.busy = false) (w : Word) : CipherInv (accept w s) := by
  have hp : s.stepPos = .idle := by
    by_contra hne
    simp [hc.busy_iff.mpr hne] at hb
  exact cipherInv_of_sameController h (.inl hp) (.inr rfl) (sameController_refl s)

/-- After a reset the controller is in INITIAL, whatever the reset draws. -/
theorem cipherInv_resetFrom (n baseAddr : Nat) (agenda : List Event) (responses : List Response) :
    CipherInv (State.resetFrom n baseAddr agenda responses) := by
  intro hf
  cases hf

theorem hostStep_keeps_cipherInv (hc : ControlInv s) (h : CipherInv s) (hx : step s = .next t) (he : eventOf s ≠ .engine) :
    CipherInv t := by
  obtain ⟨u, hu, ht⟩ | ⟨hr, -⟩ := hostStep_cases hx he
  · have hinv : CipherInv u := by
      rcases hu with rfl | hu | ⟨hb, w, rfl⟩ | ⟨-, hu⟩
      · exact h
      · exact cipherInv_of_frame h (by rw [hu])
      · exact cipherInv_accept hc h hb w
      · exact cipherInv_of_frame h (by rw [hu])
    exact cipherInv_of_frame hinv (by rw [ht])
  · rw [step_of_reset hx hr]
    exact cipherInv_resetFrom _ _ _ _

/-- Settles O47: the engine's steps, the host's and a reset each keep the invariant. -/
theorem everyStepKeepsCipherInv : Obligations.EveryStepKeepsCipherInv := by
  intro s t hc h hx
  by_cases he : eventOf s = .engine
  · have hc' : ControlInv { s with agenda := s.agenda.tail } := controlInv_of_frame hc rfl
    have h' : CipherInv { s with agenda := s.agenda.tail } := cipherInv_of_frame h rfl
    exact engineStep_keeps_cipherInv hc' h' (engineStep_of_step hx he)
  · exact hostStep_keeps_cipherInv hc h hx he

/-! ## IP and IP^-1 -/

/-- Entry `U[i]` of `T` is `i`, for every `i` in 1..n (R242). -/
def Undoes {n : Nat} (U T : PermTable n) : Prop :=
  ∀ j, j < n → T.toList.getD (U.toList.getD j 0 - 1) 0 = j + 1

theorem tableIP_undoes_tableIPInv : Undoes tableIP tableIPInv := by unfold Undoes; decide +kernel
theorem tableIPInv_undoes_tableIP : Undoes tableIPInv tableIP := by unfold Undoes; decide +kernel

/-- A table that undoes another, applied after it, gives every bit its place back. -/
theorem permute_permute_of_undoes {U T : PermTable n} (h : Undoes U T) (hU : TableInRange U n) (x : BitVec n) :
    permute U (permute T x) = x := by
  refine eq_of_getMsbD fun j hj => ?_
  have hbelow : U.toList.getD j 0 - 1 < n := by
    obtain ⟨hpos, hle⟩ := hU j hj
    rw [toList_getD U hj]
    omega
  rw [getMsbD_permute_toList U _ hj, getMsbD_permute_toList T _ hbelow, h j hj, Nat.add_sub_cancel]

theorem permute_tableIPInv_tableIP (x : Block) : permute tableIPInv (permute tableIP x) = x :=
  permute_permute_of_undoes tableIPInv_undoes_tableIP tableIPInv_inRange x

theorem permute_tableIP_tableIPInv (x : Block) : permute tableIP (permute tableIPInv x) = x :=
  permute_permute_of_undoes tableIP_undoes_tableIPInv tableIP_inRange x

/-- Settles O22: each table undoes the other. -/
theorem initialAndFinalPermutationsAreInverse : Obligations.InitialAndFinalPermutationsAreInverse := by
  refine ⟨fun x => ⟨permute_tableIPInv_tableIP x, permute_tableIP_tableIPInv x⟩, fun i hi hi' => ?_⟩
  rw [tableIP_undoes_tableIPInv (i - 1) (by omega), Nat.sub_add_cancel hi]

/-! ## ENCRYPT's steps -/

theorem positionOk_iff : positionOk pen pos = true ↔ (pen = true → 1 ≤ pos ∧ pos ≤ 64) := by
  cases pen <;> simp [positionOk]

theorem exec_encrypt_first (hp : s.stepPos = .first) (hok : positionOk pen pos = true) :
    exec (.encrypt pen tgt pos) s = .next (encryptInitial pen tgt pos s) := by
  simp [exec, execEncrypt, hp, hok]

theorem exec_encrypt_rejected (hp : s.stepPos = .first) (hok : positionOk pen pos = false) :
    exec (.encrypt pen tgt pos) s = .next (complete .outOfRange s) := by
  simp [exec, execEncrypt, hp, hok]

theorem exec_encrypt_round {r : Round} (hp : s.stepPos = .round r) :
    exec (.encrypt pen tgt pos) s = .next (encryptRound r s) := by
  simp [exec, execEncrypt, hp]

theorem exec_encrypt_last (hp : s.stepPos = .last) : exec (.encrypt pen tgt pos) s = .next (encryptFinal s) := by
  simp [exec, execEncrypt, hp]

/-- A perturbation of one DES bit, where the condition for it holds (R247, R248). -/
theorem getMsbD_perturbed {c : Prop} [Decidable c] (b : Block) (hc : c → 1 ≤ pos ∧ pos ≤ 64) {j : Nat} (hj : j < 64) :
    (if c then b ^^^ flipMask pos else b).getMsbD j = (b.getMsbD j ^^ (decide c && decide (j + 1 = pos))) := by
  by_cases h : c
  · obtain ⟨hlo, hhi⟩ := hc h
    rw [if_pos h, BitVec.getMsbD_xor, getMsbD_flipMask hlo hhi hj, decide_eq_true h, Bool.true_and]
  · rw [if_neg h, decide_eq_false h, Bool.false_and, Bool.xor_false]

theorem getMsbD_workingPt (tgt : Target) (hpos : pen = true → 1 ≤ pos ∧ pos ≤ 64) {j : Nat} (hj : j < 64) :
    (workingPt pen tgt pos pt).getMsbD j = (pt.getMsbD j ^^ (pen && decide (tgt = .pt) && decide (j + 1 = pos))) := by
  rw [workingPt, getMsbD_perturbed pt (fun h => hpos h.1) hj, Bool.decide_and, Bool.decide_eq_true]

theorem getMsbD_workingKey (tgt : Target) (hpos : pen = true → 1 ≤ pos ∧ pos ≤ 64) {j : Nat} (hj : j < 64) :
    (workingKey pen tgt pos key).getMsbD j = (key.getMsbD j ^^ (pen && decide (tgt = .key) && decide (j + 1 = pos))) := by
  rw [workingKey, getMsbD_perturbed key (fun h => hpos h.1) hj, Bool.decide_and, Bool.decide_eq_true]

/-- Settles O23: the INITIAL step, with the working values bit by bit. -/
theorem encryptInitialStep : Obligations.EncryptInitialStep := by
  intro pen tgt pos s hp hpos
  exact ⟨encryptInitial pen tgt pos s, exec_encrypt_first hp (positionOk_iff.mpr hpos),
    fun j hj => getMsbD_workingPt tgt hpos hj, fun j hj => getMsbD_workingKey tgt hpos hj, rfl⟩

/-- Settles O24: the ROUND step, its own trace entry and valid bit apart from the others'. -/
theorem encryptRoundStep : Obligations.EncryptRoundStep := by
  intro pen tgt pos s r hp
  refine ⟨encryptRound r s, exec_encrypt_round hp, rfl, rfl, fun j => ?_, fun j => getLsbD_setRoundBit s.tvalid r j,
    fun hr => encryptRound_stepPos_of_lt (by omega) s, fun hr => ?_, rfl⟩
  · by_cases hj : j = r
    · rw [if_pos hj, hj]
      simp
    · rw [if_neg hj, encryptRound_trace_of_ne hj]
  · obtain rfl : r = 15 := Fin.ext hr
    exact encryptRound_stepPos_fifteen s

/-- Settles O25: IP takes back the IP^-1 of the FINAL step. -/
theorem encryptFinalStep : Obligations.EncryptFinalStep := by
  intro pen tgt pos s hp
  exact ⟨finalBlock (s.l, s.r), exec_encrypt_last hp, rfl, permute_tableIP_tableIPInv (s.r ++ s.l)⟩

/-! ## A rejected ENCRYPT -/

/-- A word with OP 0x02 and a reserved bit set matches no row of the opcode map: of the twelve rows only ENCRYPT's has that OP. -/
theorem decode_ne_ok_of_reservedBit {w : Word} (hop : opField w = 0x02) (hres : w &&& 0xFF80FC00 ≠ 0) (i : Instr) :
    decode w ≠ .ok i := by
  intro hd
  have hm : Matches i.opcode w := (decode_eq_ok.mp hd).1
  have hcode : i.opcode = .encrypt := opcode_code_injective ((opField_of_matches hm).symm.trans hop)
  rw [hcode, Matches] at hm
  refine hres ?_
  calc w &&& 0xFF80FC00
    _ = w &&& Opcode.encrypt.mask &&& 0xFF80FC00 := by rw [BitVec.and_assoc]; rfl
    _ = 0 := by rw [hm]; rfl

/-- Settles O26: neither the position's check nor the decoder lets the command begin. -/
theorem rejectedEncryptWritesNothing : Obligations.RejectedEncryptWritesNothing := by
  refine ⟨fun tgt pos s hp hpos => ?_, fun s hp hop hres => ?_⟩
  · have hok : positionOk true pos = false := by
      rw [← Bool.not_eq_true, positionOk_iff]
      exact fun h => hpos (h rfl)
    exact exec_encrypt_rejected hp hok
  · cases hd : decode s.lcmd with
    | error r => exact engineStep_of_reject (by simp [hp]) hd
    | ok i => exact absurd hd (decode_ne_ok_of_reservedBit hop hres i)

/-! ## The whole run -/

/-- The engine step at which an ENCRYPT that passes its checks begins. -/
theorem engineStep_of_runsAt_first (h : RunsAt pen tgt pos .first s) (hok : positionOk pen pos = true) :
    engineStep s = .next (encryptInitial pen tgt pos s) := by
  have ⟨_, hp, _⟩ := h
  rw [engineStep_of_runsAt h (by simp), exec_encrypt_first hp hok]

theorem engineStep_of_runsAt_round {r : Round} (h : RunsAt pen tgt pos (.round r) s) :
    engineStep s = .next (encryptRound r s) := by
  have ⟨_, hp, _⟩ := h
  rw [engineStep_of_runsAt h (by simp), exec_encrypt_round hp]

theorem engineStep_of_runsAt_last (h : RunsAt pen tgt pos .last s) : engineStep s = .next (encryptFinal s) := by
  have ⟨_, hp, _⟩ := h
  rw [engineStep_of_runsAt h (by simp), exec_encrypt_last hp]

/-- `t` differs from `s` at most in the registers that an encryption writes before FINAL. -/
def BeforeFinalFrame (s t : State) : Prop :=
  t = { s with
    wkey := t.wkey, wpt := t.wpt, sk := t.sk, c := t.c, d := t.d, l := t.l, r := t.r, tvalid := t.tvalid, trace := t.trace,
    fstate := t.fstate, stepPos := t.stepPos }

theorem BeforeFinalFrame.trans {u : State} (h : BeforeFinalFrame s t) (h' : BeforeFinalFrame t u) : BeforeFinalFrame s u := by
  unfold BeforeFinalFrame at h h' ⊢
  rw [h', h]

/-- A step of an encryption before its last one. -/
theorem engineStep_beforeFinalFrame (h : Encrypting pen tgt pos key pt n s) (hok : positionOk pen pos = true) (hn : n < 17)
    (hx : engineStep s = .next t) : BeforeFinalFrame s t := by
  cases h with
  | accepted hrun =>
    rw [engineStep_of_runsAt_first hrun hok] at hx
    cases hx
    rfl
  | round hrun =>
    rw [engineStep_of_runsAt_round hrun] at hx
    cases hx
    rfl
  | last | completed => omega

/-- After its seventeenth step an encryption has all rounds done and FINAL due. -/
theorem last_of_encrypting (h : Encrypting pen tgt pos key pt n s) (hn : n = 17) :
    RunsAt pen tgt pos .last s ∧ RoundsDone (workingKey pen tgt pos key) (workingPt pen tgt pos pt) 16 s := by
  cases h with
  | last hrun hdone => exact ⟨hrun, hdone⟩
  | round => omega
  | accepted | completed => contradiction

/-- With no host event to come the steps left of an encryption are its rounds and then FINAL. -/
theorem run_encrypting_alone (hok : positionOk pen pos = true) (k : Nat) (h : Encrypting pen tgt pos key pt n s)
    (ha : s.agenda = []) (hn : n + k = 17) :
    ∃ t, run (k + 1) s = .next (encryptFinal t) ∧ BeforeFinalFrame s t ∧
      RoundsDone (workingKey pen tgt pos key) (workingPt pen tgt pos pt) 16 t := by
  induction k generalizing s n with
  | zero =>
    obtain ⟨hrun, hdone⟩ := last_of_encrypting h hn
    have hstep : step s = .next (encryptFinal s) := (step_of_agenda_nil ha).trans (engineStep_of_runsAt_last hrun)
    exact ⟨s, run_succ 0 hstep, rfl, hdone⟩
  | succ k ih =>
    obtain ⟨u, hu⟩ := engineStep_next s
    have hua : u.agenda = [] := (engineStep_agenda hu).trans ha
    obtain ⟨t, hrun, hframe, hdone⟩ := ih (engineStep_encrypting h hok (by omega) hu) hua (by omega)
    have hstep : step s = .next u := (step_of_agenda_nil ha).trans hu
    exact ⟨t, (run_succ (k + 1) hstep).trans hrun, (engineStep_beforeFinalFrame h hok (by omega) hu).trans hframe, hdone⟩

/-- FINAL after sixteen rounds of an encryption that began in `s`. -/
theorem encryptFinal_of_roundsDone (hframe : BeforeFinalFrame s t) (h : RoundsDone key pt 16 t) :
    encryptFinal t = { s with
      wkey := key, wpt := pt, sk := schedule key, c := (keyHalves key 16).1, d := (keyHalves key 16).2,
      l := (desHalves key pt 16).1, r := (desHalves key pt 16).2, tvalid := allRounds,
      trace := Vector.ofFn fun r => desTrace key pt r, ct := desEncrypt key pt, fstate := .final,
      busy := false, done := true, err := .none, stepPos := .idle } := by
  have htrace : t.trace = Vector.ofFn fun r => desTrace key pt r := Vector.ext fun r hr => by
    simpa using h.trace ⟨r, hr⟩ hr
  have htvalid : t.tvalid = allRounds := h.tvalid
  rw [desEncrypt, ← h.halves, ← h.keyHalves, ← h.sk, ← htrace, ← htvalid, ← h.wkey, ← h.wpt]
  unfold BeforeFinalFrame at hframe
  rw [hframe]
  rfl

/-- Settles O27: an accepted ENCRYPT has eighteen steps, INITIAL, sixteen rounds and FINAL. -/
theorem encryptComputesTheCipher : Obligations.EncryptComputesTheCipher := by
  intro pen tgt pos s ⟨ha, hb, hp, hd⟩ hok
  have hstart : Encrypting pen tgt pos s.key s.pt 0 s := .accepted ⟨hb, hp, hd⟩ rfl rfl
  obtain ⟨t, hrun, hframe, hdone⟩ := run_encrypting_alone hok 17 hstart ha rfl
  rw [hrun, encryptFinal_of_roundsDone hframe hdone]

/-- Settles O29: the cipher's function reads nothing but KEY, PT and the operands. -/
theorem encryptIsDeterministic : Obligations.EncryptIsDeterministic := by
  intro pen tgt pos s s' h h' hok hkey hpt
  refine ⟨_, _, encryptComputesTheCipher pen tgt pos s h hok, encryptComputesTheCipher pen tgt pos s' h' hok, ?_⟩
  simp only [hkey, hpt, and_self]

/-! ## The perturbation -/

theorem flipMask_eq_twoPow (pos : Nat) : flipMask pos = BitVec.twoPow 64 (64 - pos) := rfl

/-- The flip mask is the number M(POS) of R247. -/
theorem flipMask_eq_ofNat (pos : Nat) : flipMask pos = BitVec.ofNat 64 (2 ^ (64 - pos)) :=
  BitVec.eq_of_toNat_eq (BitVec.toNat_twoPow 64 (64 - pos))

theorem popcount_twoPow {w k : Nat} (hk : k < w) : popcount (BitVec.twoPow w k) = 1 := by
  have hbits : (fun i => (BitVec.twoPow w k).getLsbD i) = fun i => i == k := by
    funext i
    rw [BitVec.getLsbD_twoPow, decide_eq_true hk, Bool.true_and, beq_eq_decide]
    exact decide_eq_decide.mpr eq_comm
  rw [popcount, hbits]
  exact List.count_eq_one_of_mem List.nodup_range (List.mem_range.mpr hk)

theorem popcount_flipMask (hpos : 1 ≤ pos) : popcount (flipMask pos) = 1 := by
  rw [flipMask_eq_twoPow]
  exact popcount_twoPow (by omega)

/-- Settles O30: the target's working value differs from its register by the mask, and the other's is its register. -/
theorem perturbationFlipsExactlyOneBit : Obligations.PerturbationFlipsExactlyOneBit := by
  intro tgt pos s h hlo hhi
  refine ⟨_, encryptComputesTheCipher true tgt pos s h (positionOk_iff.mpr fun _ => ⟨hlo, hhi⟩), ?_⟩
  cases tgt with
  | pt =>
    have hwpt : workingPt true .pt pos s.pt ^^^ s.pt = flipMask pos := xor_xor_cancel_comm _ _
    have hwkey : workingKey true .pt pos s.key ^^^ s.key = 0 := BitVec.xor_self
    refine ⟨.inl ⟨rfl, hwpt.trans (flipMask_eq_ofNat pos), hwkey⟩, ?_⟩
    simp only [hwpt, hwkey, add_zero, popcount_flipMask hlo]
  | key =>
    have hwpt : workingPt true .key pos s.pt ^^^ s.pt = 0 := BitVec.xor_self
    have hwkey : workingKey true .key pos s.key ^^^ s.key = flipMask pos := xor_xor_cancel_comm _ _
    refine ⟨.inr ⟨rfl, hwkey.trans (flipMask_eq_ofNat pos), hwpt⟩, ?_⟩
    simp only [hwpt, hwkey, zero_add, popcount_flipMask hlo]

end Sys2Proof.Proofs

/-! The diffusion analyzer (44_analyzer.md): what its commands do, the aggregates of a list of samples, the final-round distance, and
the accumulators along every run of the system. -/

namespace Sys2Proof.Proofs

open Sys2Proof.Machine Sys2Proof.Safety

variable {s t : State} {i : Instr} {a : Acc} {d : Distance}

/-! ## What each command answers -/

theorem exec_hdist_self (w : Width) (s : State) :
    exec (.hdist w w) s =
      .next (finished .none { s with res := BitVec.ofNat 64 (hd (operand w.bits s.opa) (operand w.bits s.opb)) }) := by
  simp [exec, execHdist]

theorem exec_anClear (s : State) :
    exec .anClear s =
      .next (finished .none { s with acc := Vector.replicate 16 Acc.empty, hdvalid := 0, baseValid := false }) := rfl

theorem exec_anBase_of_whole (h : s.tvalid = allRounds) :
    exec .anBase s = .next (finished .none { s with base := s.trace, baseValid := true }) := by
  simp [exec, execAnBase, h]

theorem exec_anBase_of_ne (h : s.tvalid ≠ allRounds) : exec .anBase s = .next (finished .noTrace s) := by
  simp [exec, execAnBase, h]

theorem exec_anAcc_of_baseline (hv : s.baseValid = true) (hfull : accFull s = false) :
    exec .anAcc s = .next (finished .none (accumulate s)) := by
  simp [exec, execAnAcc, hv, hfull]

/-! ## AN_CLEAR, AN_BASE and HDIST -/

theorem replicate_empty_getElem (r : Round) : (Vector.replicate 16 Acc.empty)[r] = Acc.empty :=
  Vector.getElem_replicate _

/-- Settles O33: AN_CLEAR leaves every round the empty accumulator. -/
theorem anClearEmptiesTheAnalyzer : Obligations.AnClearEmptiesTheAnalyzer := by
  intro s
  refine ⟨_, exec_anClear s, fun r => ?_, rfl⟩
  simp only [finished_eq, complete_acc, replicate_empty_getElem]
  exact ⟨rfl, rfl, rfl, rfl⟩

/-- Settles O34, by whether the trace is whole. -/
theorem anBaseCopiesAWholeTrace : Obligations.AnBaseCopiesAWholeTrace := fun _ =>
  ⟨exec_anBase_of_whole, exec_anBase_of_ne⟩

/-- The distance of two operands counts the register bits below the width at which they differ. -/
theorem hd_operand (w : Nat) (opa opb : Block) :
    hd (operand w opa) (operand w opb) = ((List.range w).filter fun k => opa.getLsbD k != opb.getLsbD k).length := by
  rw [hd_eq_length_filter]
  congr 1
  refine List.filter_congr fun k hk => ?_
  rw [getLsbD_operand, getLsbD_operand, decide_eq_true (List.mem_range.mp hk), Bool.true_and, Bool.true_and]

/-- Settles O32: a distance is at most the width, so RES holds it whole. -/
theorem hdistCountsDifferingBits : Obligations.HdistCountsDifferingBits := by
  intro w s
  have hle : hd (operand w.bits s.opa) (operand w.bits s.opb) ≤ w.bits := hd_le _ _
  have hw := width_bits_le w
  have hval : (BitVec.ofNat 64 (hd (operand w.bits s.opa) (operand w.bits s.opb))).toNat =
      hd (operand w.bits s.opa) (operand w.bits s.opb) := Nat.mod_eq_of_lt (by omega)
  exact ⟨_, exec_hdist_self w s, hval.trans (hd_operand _ _ _), hval.le.trans hle⟩

/-! ## One sample -/

/-- The first sample is its own sum, minimum and maximum. -/
theorem addSample_empty (d : Distance) :
    Acc.empty.addSample d = { sum := d.setWidth 64, count := 1, min := d, max := d } := by
  have hmin : d ≤ 127#7 := by bv_omega
  have hmax : 0#7 ≤ d := by bv_omega
  simp [Acc.addSample, Acc.empty, hmin, hmax]

theorem count_ne_full_iff {c : BitVec 32} : c ≠ 0xFFFFFFFF ↔ c.toNat < 2 ^ 32 - 1 := by
  constructor <;> intro h <;> bv_omega

/-- A COUNT that is not full counts one sample more. -/
theorem addSample_count_of_not_full (h : a.count ≠ 0xFFFFFFFF) : (a.addSample d).count.toNat = a.count.toNat + 1 := by
  rw [addSample_count_toNat]
  have := count_ne_full_iff.mp h
  omega

theorem acc_ext {a b : Acc} (hsum : a.sum = b.sum) (hcount : a.count = b.count) (hmin : a.min = b.min) (hmax : a.max = b.max) :
    a = b := by
  cases a
  cases b
  exact (Acc.mk.injEq ..).mpr ⟨hsum, hcount, hmin, hmax⟩

/-- Two samples may be added in either order. -/
theorem addSample_comm (a : Acc) (x y : Distance) : (a.addSample x).addSample y = (a.addSample y).addSample x := by
  have hmin : ((a.addSample x).addSample y).min = ((a.addSample y).addSample x).min :=
    BitVec.eq_of_toNat_eq (by simp only [addSample_min_toNat]; omega)
  have hmax : ((a.addSample x).addSample y).max = ((a.addSample y).addSample x).max :=
    BitVec.eq_of_toNat_eq (by simp only [addSample_max_toNat]; omega)
  have hsum : a.sum + x.setWidth 64 + y.setWidth 64 = a.sum + y.setWidth 64 + x.setWidth 64 := add_right_comm _ _ _
  exact acc_ext hsum rfl hmin hmax

/-! ## AN_ACC -/

/-- Settles O35: with a baseline and no full COUNT, AN_ACC is the accumulation of the rounds with data. -/
theorem anAccAccumulatesEveryIncludedRound : Obligations.AnAccAccumulatesEveryIncludedRound := by
  intro s hv hcount
  have hroom (r : Round) (h : included s r = true) : s.acc[r].count ≠ 0xFFFFFFFF := count_ne_full_iff.mpr (hcount r h)
  refine ⟨_, exec_anAcc_of_baseline hv (accFull_eq_false.mpr hroom), fun r h => ?_, fun r h => ?_, rfl⟩
  · simp only [finished_eq, complete_acc, complete_hdLast, accumulate_acc h, accumulate_hdLast h]
    exact ⟨(roundDistance_toNat s r).trans (hd_eq_length_filter _ _), addSample_sum_toNat _ _,
      addSample_count_of_not_full (hroom r h), addSample_min_toNat _ _, addSample_max_toNat _ _, h⟩
  · exact ⟨accumulate_hdLast_excluded h, accumulate_acc_excluded h, h⟩

/-! ## The aggregates of a list of samples -/

theorem foldl_addSample_count (ds : List Distance) (a : Acc) :
    (ds.foldl Acc.addSample a).count.toNat = (a.count.toNat + ds.length) % 2 ^ 32 := by
  induction ds generalizing a with
  | nil => exact (Nat.mod_eq_of_lt a.count.isLt).symm
  | cons d ds ih =>
    rw [List.foldl_cons, ih, addSample_count_toNat, Nat.mod_add_mod, List.length_cons]
    congr 1
    omega

theorem foldl_addSample_sum (ds : List Distance) (a : Acc) :
    (ds.foldl Acc.addSample a).sum.toNat = (a.sum.toNat + (ds.map BitVec.toNat).sum) % 2 ^ 64 := by
  induction ds generalizing a with
  | nil => exact (Nat.mod_eq_of_lt a.sum.isLt).symm
  | cons d ds ih =>
    rw [List.foldl_cons, ih, addSample_sum_toNat, Nat.mod_add_mod, List.map_cons, List.sum_cons, Nat.add_assoc]

theorem foldl_addSample_min (ds : List Distance) (a : Acc) :
    (ds.foldl Acc.addSample a).min.toNat = (ds.map BitVec.toNat).foldl min a.min.toNat := by
  rw [List.foldl_map]
  exact (List.foldl_hom (fun a : Acc => a.min.toNat) fun a d => (addSample_min_toNat a d).symm).symm

theorem foldl_addSample_max (ds : List Distance) (a : Acc) :
    (ds.foldl Acc.addSample a).max.toNat = (ds.map BitVec.toNat).foldl max a.max.toNat := by
  rw [List.foldl_map]
  exact (List.foldl_hom (fun a : Acc => a.max.toNat) fun a d => (addSample_max_toNat a d).symm).symm

/-- MIN of the samples is one of them, and the least. -/
theorem foldl_addSample_min_spec {ds : List Distance} (hne : ds ≠ []) :
    (ds.foldl Acc.addSample Acc.empty).min ∈ ds ∧
      ∀ x ∈ ds, (ds.foldl Acc.addSample Acc.empty).min.toNat ≤ x.toNat := by
  have hmin : (ds.map BitVec.toNat).min? = some (ds.foldl Acc.addSample Acc.empty).min.toNat := by
    cases ds with
    | nil => exact absurd rfl hne
    | cons d ds => rw [List.map_cons, List.min?_cons', List.foldl_cons, addSample_empty, foldl_addSample_min]
  obtain ⟨hmem, hle⟩ := List.min?_eq_some_iff.mp hmin
  exact ⟨(List.mem_map_of_injective BitVec.toNat_injective).mp hmem, fun x hx => hle _ (List.mem_map_of_mem hx)⟩

/-- MAX of the samples is one of them, and the greatest. -/
theorem foldl_addSample_max_spec {ds : List Distance} (hne : ds ≠ []) :
    (ds.foldl Acc.addSample Acc.empty).max ∈ ds ∧
      ∀ x ∈ ds, x.toNat ≤ (ds.foldl Acc.addSample Acc.empty).max.toNat := by
  have hmax : (ds.map BitVec.toNat).max? = some (ds.foldl Acc.addSample Acc.empty).max.toNat := by
    cases ds with
    | nil => exact absurd rfl hne
    | cons d ds => rw [List.map_cons, List.max?_cons', List.foldl_cons, addSample_empty, foldl_addSample_max]
  obtain ⟨hmem, hle⟩ := List.max?_eq_some_iff.mp hmax
  exact ⟨(List.mem_map_of_injective BitVec.toNat_injective).mp hmem, fun x hx => hle _ (List.mem_map_of_mem hx)⟩

/-- Fewer than 2^32 distances have a sum that SUM holds (R287). -/
theorem sum_toNat_lt {ds : List Distance} (hle : ∀ x ∈ ds, x.toNat ≤ 64) (hlen : ds.length < 2 ^ 32) :
    (ds.map BitVec.toNat).sum < 2 ^ 64 := by
  have hsum : (ds.map BitVec.toNat).sum ≤ (ds.map BitVec.toNat).length • 64 :=
    List.sum_le_card_nsmul _ 64 (by simpa using hle)
  rw [List.length_map, smul_eq_mul] at hsum
  omega

/-- Settles O36: each aggregate is a fold of its own, none wraps, and two samples may change places. -/
theorem accumulatorsHoldTheAggregates : Obligations.AccumulatorsHoldTheAggregates := by
  intro ds hle hlen
  refine ⟨?_, ?_, fun hne => ?_, fun hnil => ?_, fun ds' hperm => ?_⟩
  · have hzero : Acc.empty.count.toNat = 0 := rfl
    rw [foldl_addSample_count, hzero, Nat.zero_add, Nat.mod_eq_of_lt hlen]
  · have hzero : Acc.empty.sum.toNat = 0 := rfl
    rw [foldl_addSample_sum, hzero, Nat.zero_add, Nat.mod_eq_of_lt (sum_toNat_lt hle hlen)]
  · obtain ⟨hmin, hleast⟩ := foldl_addSample_min_spec hne
    obtain ⟨hmax, hgreatest⟩ := foldl_addSample_max_spec hne
    exact ⟨hmin, hmax, fun x hx => ⟨hleast x hx, hgreatest x hx⟩⟩
  · rw [hnil]
    exact ⟨rfl, rfl⟩
  · exact (hperm.foldl_eq' (fun x _ y _ a => addSample_comm a x y) Acc.empty).symm

/-! ## The final-round distance -/

/-- The 1 bits may be counted from the most significant on. -/
theorem popcount_eq_countP_getMsbD {w : Nat} (v : BitVec w) : popcount v = (List.range w).countP v.getMsbD := by
  have hrev : (List.range w).reverse = (List.range w).map (w - 1 - ·) := by
    simpa [List.range_eq_range'] using List.reverse_range' (s := 0) (n := w)
  rw [popcount, ← List.countP_reverse, hrev, List.countP_map]
  refine List.countP_congr fun k hk => ?_
  simp [BitVec.getMsbD, List.mem_range.mp hk]

theorem popcount_append {m n : Nat} (x : BitVec m) (y : BitVec n) : popcount (x ++ y) = popcount x + popcount y := by
  simp only [popcount_eq_countP_getMsbD, List.range_add, List.countP_append, List.countP_map]
  congr 1
  · refine List.countP_congr fun k hk => ?_
    rw [getMsbD_append, if_pos (List.mem_range.mp hk)]
  · refine List.countP_congr fun k _ => ?_
    rw [Function.comp_apply, getMsbD_append, if_neg (by omega), Nat.add_sub_cancel_left]

/-- The table names every bit of its operand exactly once. -/
def NamesEachBitOnce {n : Nat} (T : PermTable n) : Prop :=
  ((List.range n).map fun j => T.toList.getD j 0 - 1).Perm (List.range n)

theorem tableIPInv_namesEachBitOnce : NamesEachBitOnce tableIPInv := by unfold NamesEachBitOnce; decide +kernel

/-- A permutation of all bits keeps the number of 1 bits. -/
theorem popcount_permute {n : Nat} {T : PermTable n} (hT : NamesEachBitOnce T) (v : BitVec n) :
    popcount (permute T v) = popcount v := by
  calc popcount (permute T v)
    _ = (List.range n).countP (permute T v).getMsbD := popcount_eq_countP_getMsbD _
    _ = (List.range n).countP (v.getMsbD ∘ fun j => T.toList.getD j 0 - 1) :=
      List.countP_congr fun j hj => by rw [getMsbD_permute_toList T v (List.mem_range.mp hj), Function.comp_apply]
    _ = ((List.range n).map fun j => T.toList.getD j 0 - 1).countP v.getMsbD := List.countP_map.symm
    _ = (List.range n).countP v.getMsbD := hT.countP_eq _
    _ = popcount v := (popcount_eq_countP_getMsbD v).symm

theorem hd_append {m n : Nat} (x x' : BitVec m) (y y' : BitVec n) : hd (x ++ y) (x' ++ y') = hd x x' + hd y y' := by
  rw [hd, BitVec.xor_append, popcount_append, hd, hd]

theorem hd_permute {n : Nat} {T : PermTable n} (hT : NamesEachBitOnce T) (x y : BitVec n) :
    hd (permute T x) (permute T y) = hd x y := by
  rw [hd, ← permute_xor, popcount_permute hT, hd]

/-- The final swap and permutation keep the distance of the halves. -/
theorem hd_finalBlock (h h' : HalfBlock × HalfBlock) : hd (finalBlock h) (finalBlock h') = hd (h.1 ++ h.2) (h'.1 ++ h'.2) := by
  rw [finalBlock, finalBlock, hd_permute tableIPInv_namesEachBitOnce, hd_append, hd_append, Nat.add_comm]

/-- Settles O37: the ciphertext is the last trace entry, swapped and permuted. -/
theorem finalRoundDistanceIsCiphertextDistance : Obligations.FinalRoundDistanceIsCiphertextDistance :=
  fun _ _ _ _ => (hd_finalBlock _ _).symm

/-! ## The analyzer invariant -/

theorem accOk_empty : AccOk Acc.empty := ⟨fun _ => rfl, fun h => absurd rfl h⟩

/-- The first sample makes an aggregate. -/
theorem accOk_addSample_empty (hle : d.toNat ≤ 64) : AccOk (Acc.empty.addSample d) := by
  have hsum : (d.setWidth 64).toNat = d.toNat := BitVec.toNat_setWidth_of_le (by decide)
  have hne : (1 : BitVec 32) ≠ 0 := by decide
  have hone : (1 : BitVec 32).toNat * d.toNat = d.toNat := Nat.one_mul _
  rw [addSample_empty]
  exact ⟨fun h => absurd h hne, fun _ => ⟨le_rfl, hle, (hone.trans hsum.symm).le, (hsum.trans hone.symm).le⟩⟩

/-- A sample more keeps SUM between COUNT times MIN and COUNT times MAX, where COUNT is not full: so SUM does not wrap (R287). -/
theorem accOk_addSample (h : AccOk a) (hroom : a.count ≠ 0xFFFFFFFF) (hle : d.toNat ≤ 64) : AccOk (a.addSample d) := by
  obtain ⟨hempty, hbounds⟩ := h
  by_cases hzero : a.count = 0
  · rw [hempty hzero]
    exact accOk_addSample_empty hle
  obtain ⟨-, hmax, hlow, hhigh⟩ := hbounds hzero
  have hcount := addSample_count_of_not_full (d := d) hroom
  have hsum : (a.addSample d).sum.toNat = a.sum.toNat + d.toNat := by
    have hsmall : a.count.toNat * a.max.toNat ≤ 2 ^ 32 * 64 := Nat.mul_le_mul a.count.isLt.le hmax
    rw [addSample_sum_toNat, Nat.mod_eq_of_lt (by omega)]
  refine ⟨fun h0 => ?_, fun _ => ?_⟩
  · rw [h0] at hcount
    cases hcount
  rw [hcount, hsum, addSample_min_toNat, addSample_max_toNat]
  refine ⟨by omega, by omega, ?_, ?_⟩
  · calc (a.count.toNat + 1) * min a.min.toNat d.toNat
      _ = a.count.toNat * min a.min.toNat d.toNat + min a.min.toNat d.toNat := Nat.succ_mul _ _
      _ ≤ a.count.toNat * a.min.toNat + d.toNat :=
        Nat.add_le_add (Nat.mul_le_mul_left _ (min_le_left _ _)) (min_le_right _ _)
      _ ≤ a.sum.toNat + d.toNat := Nat.add_le_add_right hlow _
  · calc a.sum.toNat + d.toNat
      _ ≤ a.count.toNat * a.max.toNat + d.toNat := Nat.add_le_add_right hhigh _
      _ ≤ a.count.toNat * max a.max.toNat d.toNat + max a.max.toNat d.toNat :=
        Nat.add_le_add (Nat.mul_le_mul_left _ (le_max_left _ _)) (le_max_right _ _)
      _ = (a.count.toNat + 1) * max a.max.toNat d.toNat := (Nat.succ_mul _ _).symm

/-- Empty accumulators and no valid HD_LAST meet the invariant. -/
theorem analyzerInv_of_empty (hacc : s.acc = Vector.replicate 16 Acc.empty) (hvalid : s.hdvalid = 0) : AnalyzerInv s := by
  intro r
  rw [hacc, hvalid, replicate_empty_getElem]
  exact ⟨accOk_empty, fun h => by simp at h⟩

/-- An accumulation with no full COUNT keeps the invariant: a round with data takes a distance, any other round loses its HDVALID
bit alone. -/
theorem analyzerInv_accumulate (h : AnalyzerInv s) (hfull : accFull s = false) : AnalyzerInv (accumulate s) := by
  intro r
  obtain ⟨hacc, -⟩ := h r
  cases hr : included s r with
  | true =>
    rw [accumulate_acc hr, accumulate_hdLast hr]
    exact ⟨accOk_addSample hacc (accFull_eq_false.mp hfull r hr) (roundDistance_le s r), fun _ => roundDistance_le s r⟩
  | false =>
    rw [accumulate_acc_excluded hr]
    exact ⟨hacc, fun hvalid => absurd (hr.symm.trans hvalid) (by decide)⟩

/-- Of all commands AN_CLEAR and AN_ACC alone write the accumulators, HD_LAST or HDVALID. -/
theorem exec_keeps_analyzerInv (h : AnalyzerInv s) (hx : exec i s = .next t) : AnalyzerInv t := by
  rcases exec_cases hx with ⟨-, e, rfl⟩ | ⟨-, -, v, rfl⟩ | ⟨-, rfl⟩ | ⟨-, rfl⟩ | ⟨-, -, rfl⟩ | ⟨-, -, hfull, rfl⟩ |
    ⟨pen, tgt, pos, -, ⟨-, rfl⟩ | ⟨-, -, rfl⟩ | ⟨r, -, rfl⟩ | ⟨-, rfl⟩⟩
  on_goal 4 => exact analyzerInv_of_empty rfl rfl
  on_goal 5 => exact analyzerInv_accumulate h hfull
  all_goals exact h

theorem engineStep_keeps_analyzerInv (h : AnalyzerInv s) (hx : engineStep s = .next t) : AnalyzerInv t := by
  rcases engineStep_cases hx with ⟨-, rfl⟩ | ⟨-, -, rfl⟩ | ⟨-, i, -, hx⟩
  · exact h
  · exact h
  · exact exec_keeps_analyzerInv h hx

/-- Settles O48: the engine's steps keep the invariant, a reset empties the accumulators, and no host access writes them. -/
theorem everyStepKeepsAnalyzerInv : Obligations.EveryStepKeepsAnalyzerInv := by
  intro s t h hx
  by_cases he : eventOf s = .engine
  · have h' : AnalyzerInv { s with agenda := s.agenda.tail } := h
    exact engineStep_keeps_analyzerInv h' (engineStep_of_step hx he)
  · by_cases hr : eventOf s = .reset
    · rw [step_of_reset hx hr]
      exact analyzerInv_of_empty rfl rfl
    · rw [hostStep_frame hx he hr]
      exact h

end Sys2Proof.Proofs

/-! The errors and the idle engine (60_exceptions.md): the cause of each error code, and what an engine step does where a command
raises one or none is latched. -/

namespace Sys2Proof.Proofs

open Sys2Proof.Machine Sys2Proof.Safety

variable {s t u : State} {i : Instr} {e : ErrCode} {pen : Bool} {pos : Nat}

/-! ## The causes -/

/-- The cause of an error code that a command's own checks raise at its first step (60_exceptions.md rules R304 to R308); ILLEGAL_CMD
is the decoder's (R303). -/
def Cause (i : Instr) (s : State) : ErrCode → Prop
  | .none | .illegalCmd => False
  | .outOfRange => ∃ tgt pos, i = .encrypt true tgt pos ∧ ¬(1 ≤ pos ∧ pos ≤ 64)
  | .lengthMismatch => ∃ wa wb, wa ≠ wb ∧ (i = .xor wa wb ∨ i = .hdist wa wb)
  | .noBaseline => i = .anAcc ∧ s.baseValid = false
  | .noTrace => i = .anBase ∧ s.tvalid ≠ 0xFFFF
  | .accOverflow => i = .anAcc ∧ s.baseValid = true ∧
      ∃ r : Round, s.tvalid.getLsbD r.val = true ∧ s.acc[r].count = 0xFFFFFFFF

theorem positionOk_eq_false : positionOk pen pos = false ↔ pen = true ∧ ¬(1 ≤ pos ∧ pos ≤ 64) := by
  rw [← Bool.not_eq_true, positionOk_iff, Classical.not_imp]

theorem exec_anAcc_of_no_baseline (hv : s.baseValid = false) : exec .anAcc s = .next (complete .noBaseline s) := by
  simp [exec, execAnAcc, hv]

theorem exec_anAcc_of_full (hv : s.baseValid = true) (hfull : accFull s = true) :
    exec .anAcc s = .next (complete .accOverflow s) := by
  simp [exec, execAnAcc, hv, hfull]

/-- A command with a cause to fail completes with that code and writes nothing else (R300). -/
theorem exec_of_cause (ha : AtFirst i s) (h : Cause i s e) : exec i s = .next (complete e s) := by
  cases e with
  | none | illegalCmd => exact h.elim
  | outOfRange =>
    obtain ⟨tgt, pos, rfl, hpos⟩ := h
    exact exec_encrypt_rejected (ha _ _ _ rfl) (positionOk_eq_false.mpr ⟨rfl, hpos⟩)
  | lengthMismatch =>
    obtain ⟨wa, wb, hne, rfl | rfl⟩ := h
    · exact exec_xor_of_ne hne s
    · exact exec_hdist_of_ne hne s
  | noBaseline =>
    obtain ⟨rfl, hv⟩ := h
    exact exec_anAcc_of_no_baseline hv
  | noTrace =>
    obtain ⟨rfl, hne⟩ := h
    exact exec_anBase_of_ne hne
  | accOverflow =>
    obtain ⟨rfl, hv, hfull⟩ := h
    exact exec_anAcc_of_full hv (accFull_eq_true.mpr hfull)

theorem exec_unique (h : exec i s = .next t) (h' : exec i s = .next u) : t = u :=
  Host.Outcome.next.inj (h.symm.trans h')

/-- A command that completes at its first step succeeds, or its code's cause holds. -/
theorem exec_err_none_or_cause (hp : s.stepPos = .first) (hx : exec i s = .next t) (ht : t.stepPos = .idle) :
    t.err = .none ∨ Cause i s t.err := by
  cases i with
  | nop | ksched | permute | rotl28 | sbox | feval | anClear => exact .inl (exec_unique hx rfl ▸ rfl)
  | encrypt pen tgt pos =>
    cases hok : positionOk pen pos with
    | true =>
      rw [exec_unique hx (exec_encrypt_first hp hok)] at ht
      cases ht
    | false =>
      obtain ⟨rfl, hpos⟩ := positionOk_eq_false.mp hok
      exact .inr (exec_unique hx (exec_encrypt_rejected hp hok) ▸ ⟨tgt, pos, rfl, hpos⟩)
  | xor wa wb =>
    by_cases hw : wa = wb
    · subst hw
      exact .inl (exec_unique hx (exec_xor_self wa s) ▸ rfl)
    · exact .inr (exec_unique hx (exec_xor_of_ne hw s) ▸ ⟨wa, wb, hw, .inl rfl⟩)
  | hdist wa wb =>
    by_cases hw : wa = wb
    · subst hw
      exact .inl (exec_unique hx (exec_hdist_self wa s) ▸ rfl)
    · exact .inr (exec_unique hx (exec_hdist_of_ne hw s) ▸ ⟨wa, wb, hw, .inr rfl⟩)
  | anBase =>
    by_cases hw : s.tvalid = allRounds
    · exact .inl (exec_unique hx (exec_anBase_of_whole hw) ▸ rfl)
    · exact .inr (exec_unique hx (exec_anBase_of_ne hw) ▸ ⟨rfl, hw⟩)
  | anAcc =>
    cases hv : s.baseValid with
    | false => exact .inr (exec_unique hx (exec_anAcc_of_no_baseline hv) ▸ ⟨rfl, hv⟩)
    | true =>
      cases hfull : accFull s with
      | false => exact .inl (exec_unique hx (exec_anAcc_of_baseline hv hfull) ▸ rfl)
      | true => exact .inr (exec_unique hx (exec_anAcc_of_full hv hfull) ▸ ⟨rfl, hv, accFull_eq_true.mp hfull⟩)

/-- At a completing first step ERR names the code whose cause holds. -/
theorem exec_err_eq_iff_cause (hp : s.stepPos = .first) (hx : exec i s = .next t) (ht : t.stepPos = .idle)
    (he : e ≠ .none) : t.err = e ↔ Cause i s e := by
  constructor
  · rintro rfl
    exact (exec_err_none_or_cause hp hx ht).resolve_left he
  · intro h
    rw [exec_unique hx (exec_of_cause (fun _ _ _ _ => hp) h), complete_err]

/-- Settles O39: ERR is a code exactly where its cause holds. -/
theorem errorsHaveExactlyTheirCauses : Obligations.ErrorsHaveExactlyTheirCauses := by
  intro i s t hp hx ht
  have hiff (e : ErrCode) (he : e ≠ .none) : t.err = e ↔ Cause i s e := exec_err_eq_iff_cause hp hx ht he
  exact ⟨fun h => (hiff .illegalCmd nofun).mp h, hiff .outOfRange nofun, hiff .lengthMismatch nofun,
    hiff .noBaseline nofun, hiff .noTrace nofun, hiff .accOverflow nofun⟩

/-! ## What an error writes -/

theorem encryptRound_stepPos_ne_idle (r : Round) (s : State) : (encryptRound r s).stepPos ≠ .idle := by
  simp only [encryptRound, StepPos.next]
  split <;> exact nofun

/-- A command's step that completes with an error writes the status fields alone. -/
theorem exec_error_frame (hp : s.stepPos ≠ .idle) (hx : exec i s = .next t) (ht : t.stepPos = .idle) (he : t.err ≠ .none) :
    t = complete t.err s := by
  rcases exec_cases hx with ⟨-, e, rfl⟩ | ⟨-, -, v, rfl⟩ | ⟨-, rfl⟩ | ⟨-, rfl⟩ | ⟨-, -, rfl⟩ | ⟨-, -, -, rfl⟩ |
    ⟨pen, tgt, pos, -, ⟨hidle, -⟩ | ⟨-, -, rfl⟩ | ⟨r, -, rfl⟩ | ⟨-, rfl⟩⟩
  · rfl
  iterate 5 exact absurd rfl he
  · exact absurd hidle hp
  · cases ht
  · exact absurd ht (encryptRound_stepPos_ne_idle r s)
  · exact absurd rfl he

theorem engineStep_error_frame (hp : s.stepPos ≠ .idle) (hx : engineStep s = .next t) (ht : t.stepPos = .idle)
    (he : t.err ≠ .none) : t = complete t.err s := by
  rcases engineStep_cases hx with ⟨hidle, -⟩ | ⟨-, -, rfl⟩ | ⟨-, i, -, hx⟩
  · exact absurd hidle hp
  · rfl
  · exact exec_error_frame hp hx ht he

theorem engineStep_of_cause (hp : s.stepPos ≠ .idle) (hd : decode s.lcmd = .ok i) (ha : AtFirst i s) (h : Cause i s e) :
    engineStep s = .next (finished e s) :=
  (engineStep_of_decode hp hd).trans (exec_of_cause ha h)

/-- Settles O38: the decoder's error and each cause complete the command at once, and no step that errs writes more. -/
theorem anErrorWritesOnlyTheStatusFields : Obligations.AnErrorWritesOnlyTheStatusFields := by
  intro s hp
  refine ⟨fun t => engineStep_error_frame hp, fun r hd => engineStep_of_reject hp hd, fun tgt pos hd hf hpos => ?_,
    fun wa wb hd hne => ?_, fun hd hne => ?_, fun hd hv => ?_, fun hd hv hfull => ?_⟩
  · exact engineStep_of_cause hp hd (fun _ _ _ _ => hf) (e := .outOfRange) ⟨tgt, pos, rfl, hpos⟩
  · obtain hd | hd := hd
    · exact engineStep_of_cause hp hd nofun (e := .lengthMismatch) ⟨wa, wb, hne, .inl rfl⟩
    · exact engineStep_of_cause hp hd nofun (e := .lengthMismatch) ⟨wa, wb, hne, .inr rfl⟩
  · exact engineStep_of_cause hp hd nofun (e := .noTrace) ⟨rfl, hne⟩
  · exact engineStep_of_cause hp hd nofun (e := .noBaseline) ⟨rfl, hv⟩
  · exact engineStep_of_cause hp hd nofun (e := .accOverflow) ⟨rfl, hv, hfull⟩

/-! ## The idle engine -/

theorem engineStep_of_idle (h : s.stepPos = .idle) : engineStep s = .next s := if_pos h

/-- While the engine is idle, a write to CMD accepts the word. -/
theorem writeWord_cmd (hb : s.busy = false) (v : Word) : writeWord .cmd v s = accept v s := by
  simp [writeWord, hb]

theorem hostWrite_cmd (hb : s.busy = false) (v : Word) :
    hostWrite 4 (s.baseAddr + 0x008) v s = respond .done (accept v s) :=
  (hostWrite_offset .cmd v s).trans (congrArg _ (writeWord_cmd hb v))

/-- Settles O8: an idle engine's step is the identity, and the host's write to CMD is an acceptance. -/
theorem idleEngineWaitsForACommand : Obligations.IdleEngineWaitsForACommand := by
  refine ⟨fun s hp => ⟨engineStep_of_idle hp, fun ha => ?_, fun rest ha => ?_⟩, fun s v hb => ?_, fun s v rest hb ha => ?_⟩
  · rw [step_of_agenda_nil ha, engineStep_of_idle hp]
  · exact (step_engine ha).trans (engineStep_of_idle hp)
  · exact (memWrite_offset .cmd v s).trans (congrArg Except.ok (writeWord_cmd hb v))
  · exact (step_write ha).trans (congrArg _ (hostWrite_cmd (s := { s with agenda := rest }) hb v))

end Sys2Proof.Proofs

/-! Reset and hazards (70_reset_and_hazards.md): how many steps a command takes and how long a host waits for it, the operands of a
running command, and STATUS while the engine is busy. -/

namespace Sys2Proof.Proofs

open Sys2Proof.Machine Sys2Proof.Safety

variable {s t : State} {i : Instr}

/-! ## Commands of one step -/

/-- A command's step completes it, if the command is no ENCRYPT. -/
theorem exec_completes_of_ne_encrypt (hne : ∀ pen tgt pos, i ≠ .encrypt pen tgt pos) (h : exec i s = .next t) :
    ∃ e u, t = complete e u := by
  rcases exec_cases h with ⟨-, e, rfl⟩ | ⟨-, -, v, rfl⟩ | ⟨-, rfl⟩ | ⟨-, rfl⟩ | ⟨-, -, rfl⟩ | ⟨-, -, -, rfl⟩ |
    ⟨pen, tgt, pos, hi, -⟩
  on_goal 7 => exact absurd hi (hne pen tgt pos)
  all_goals exact ⟨_, _, rfl⟩

/-- Settles O9: a command that is no ENCRYPT ends in a completion, which sets the three fields. -/
theorem otherCommandsCompleteInOneStep : Obligations.OtherCommandsCompleteInOneStep := by
  intro i s hne
  obtain ⟨t, ht⟩ := exec_next i s
  obtain ⟨e, u, rfl⟩ := exec_completes_of_ne_encrypt hne ht
  exact ⟨_, ht, rfl, rfl, rfl⟩

/-! ## The operands of a running command -/

/-- An engine step writes neither the host's registers nor the latched word. -/
theorem engineStep_keeps_operands (h : engineStep s = .next t) :
    t.key = s.key ∧ t.pt = s.pt ∧ t.opa = s.opa ∧ t.opb = s.opb ∧ t.lcmd = s.lcmd := by
  rcases engineStep_cases h with ⟨-, rfl⟩ | ⟨-, -, rfl⟩ | ⟨-, i, -, hx⟩
  · exact ⟨rfl, rfl, rfl, rfl, rfl⟩
  · exact ⟨rfl, rfl, rfl, rfl, rfl⟩
  · obtain ⟨hkey, hpt, hopa, hopb, hlcmd, -⟩ := commandsLeaveTheHostsRegistersAlone i s t hx
    exact ⟨hkey, hpt, hopa, hopb, hlcmd⟩

/-- Settles O43: no engine step writes an operand, and the host's writes are ignored while BUSY = 1. -/
theorem operandsHoldWhileBusy : Obligations.OperandsHoldWhileBusy := by
  intro s t hb hr h
  by_cases he : eventOf s = .engine
  · exact engineStep_keeps_operands (s := { s with agenda := s.agenda.tail }) (engineStep_of_step h he)
  · rw [hostStep_frame_of_busy hb h he hr]
    exact ⟨rfl, rfl, rfl, rfl, rfl⟩

/-! ## STATUS while busy -/

/-- The running command is the one LCMD decodes to, while BUSY = 1. -/
theorem runningCommand_eq_some : runningCommand s = some i ↔ s.busy = true ∧ decode s.lcmd = .ok i := by
  unfold runningCommand
  cases s.busy <;> cases decode s.lcmd <;> simp [Except.toOption]

theorem readWord_status (s : State) : readWord .status s = readStatus s := by
  simp [readWord]

/-- A read of STATUS returns the register's fields, but for FSTATE while an ENCRYPT runs and BASE_VALID while AN_CLEAR or AN_BASE
does (R342). -/
theorem readWord_status_eq_packStatus (s : State) :
    ∃ baseValid fstate, (readWord .status s).1 = packStatus s.busy s.done baseValid s.bovr s.err fstate ∧
      ((¬ ∃ pen tgt pos, decode s.lcmd = .ok (.encrypt pen tgt pos)) → fstate = s.fstate) ∧
      (decode s.lcmd ≠ .ok .anClear → decode s.lcmd ≠ .ok .anBase → baseValid = s.baseValid) := by
  rw [readWord_status]
  unfold readStatus
  split
  · rename_i pen tgt pos hrun
    have hd := (runningCommand_eq_some.mp hrun).2
    exact ⟨_, _, rfl, fun hne => absurd ⟨pen, tgt, pos, hd⟩ hne, fun _ _ => rfl⟩
  · rename_i hrun
    exact ⟨_, _, rfl, fun _ => rfl, fun hne _ => absurd (runningCommand_eq_some.mp hrun).2 hne⟩
  · rename_i hrun
    exact ⟨_, _, rfl, fun _ => rfl, fun _ hne => absurd (runningCommand_eq_some.mp hrun).2 hne⟩
  · exact ⟨_, _, rfl, fun _ => rfl, fun _ _ => rfl⟩

/-- Reading a word leaves every register as it is. -/
theorem readWord_frame (g : Reg) (s : State) : (readWord g s).2 = { s with draws := (readWord g s).2.draws } := by
  rcases readWord_state g s with h | h <;> rw [h]

/-- Settles O54: the word read is a packed one, whose fields stand where R32 puts them. -/
theorem statusReadWhileBusy : Obligations.StatusReadWhileBusy := by
  intro s s' v hb hread
  obtain ⟨rfl, rfl⟩ : (readWord .status s).1 = v ∧ (readWord .status s).2 = s' := by simp [hread]
  obtain ⟨baseValid, fstate, hword, hfstate, hbaseValid⟩ := readWord_status_eq_packStatus s
  obtain ⟨hbusy, hdone, hvalid, hbovr, herr, hcode, -⟩ := packStatus_fields s.busy s.done baseValid s.bovr s.err fstate
  rw [hword]
  refine ⟨hbusy.trans hb, hdone, hbovr, herr, ?_, fun k hk => getLsbD_packStatus_of_ge _ _ _ _ _ _ hk, fun hne => ?_,
    fun hclear hbase => ?_, readWord_frame .status s⟩
  · rw [hcode]
    exact ctrlState_code_le fstate
  · rw [hcode, hfstate hne]
  · rw [hvalid, hbaseValid hclear hbase]

/-! ## WAIT -/

/-- The most engine steps that a command at this position of STEP still takes (R345). -/
def stepsLeft : StepPos → Nat
  | .idle => 0
  | .first => 18
  | .round r => 17 - r.val
  | .last => 1

theorem stepsLeft_le (p : StepPos) : stepsLeft p ≤ 18 := by
  cases p with
  | round r => exact Nat.le_trans (Nat.sub_le 17 r) (by decide)
  | idle | first | last => decide

theorem stepsLeft_next {p : StepPos} (hp : p ≠ .idle) : stepsLeft p.next + 1 = stepsLeft p := by
  cases p with
  | idle => exact absurd rfl hp
  | first => rfl
  | round r =>
    simp only [StepPos.next]
    split <;> simp only [stepsLeft] <;> omega
  | last => rfl

/-- An engine step completes the command or advances STEP (R345). -/
theorem engineStep_stepPos (h : engineStep s = .next t) : t.stepPos = .idle ∨ t.stepPos = s.stepPos.next := by
  rcases engineStep_cases h with ⟨hp, rfl⟩ | ⟨-, -, rfl⟩ | ⟨hp, i, -, hx⟩
  · exact .inl hp
  · exact .inl rfl
  · rcases exec_completes_or_encrypts hx with ⟨-, ht, -⟩ |
      ⟨pen, tgt, pos, -, ⟨hs, -⟩ | ⟨hs, -, rfl⟩ | ⟨r, hs, rfl⟩ | ⟨-, rfl⟩⟩
    · exact .inl ht
    · exact absurd hs hp
    · exact .inr (by rw [hs]; rfl)
    · exact .inr (by rw [hs]; rfl)
    · exact .inl rfl

/-- Every step of a running engine brings the command nearer to its completion (R346). -/
theorem stepsLeft_engineStep_lt (hp : s.stepPos ≠ .idle) (h : engineStep s = .next t) :
    stepsLeft t.stepPos < stepsLeft s.stepPos := by
  have hnext := stepsLeft_next hp
  obtain ht | ht := engineStep_stepPos h
  · rw [ht, stepsLeft]
    omega
  · rw [ht]
    omega

/-- WAIT's turn puts an engine step and the next poll first exactly if BUSY = 1. -/
theorem hostWait_agenda (s : State) :
    (hostWait s).agenda = if s.busy then .engine :: .wait :: s.agenda else s.agenda := by
  have hagenda : (readWord .status s).2.agenda = s.agenda := by rw [readWord_frame]
  simp only [hostWait, readWord_status_busy]
  split <;> rw [respond_agenda, hagenda]

/-- A poll of WAIT neither starts nor moves a command; it decides what the events to come are. -/
theorem step_wait {rest : List Event} (hs : s.agenda = .wait :: rest) :
    ∃ t, step s = .next t ∧ t.busy = s.busy ∧ t.stepPos = s.stepPos ∧
      t.agenda = if s.busy then .engine :: .wait :: rest else rest := by
  have hstep : step s = .next (hostWait { s with agenda := rest }) := by simp [step, nextEvent, hs, perform]
  obtain ⟨a, n, evs, hwait⟩ := hostWait_cases { s with agenda := rest }
  exact ⟨_, hstep, by rw [hwait], by rw [hwait], hostWait_agenda _⟩

/-- One turn of WAIT while a command runs: a poll and an engine step lead to the next poll, with less of the command left. -/
theorem run_waitTurn {rest : List Event} (hc : ControlInv s) (hs : s.agenda = .wait :: rest) (hb : s.busy = true) :
    ∃ t, (∀ n, run (n + 2) s = run n t) ∧ ControlInv t ∧ t.agenda = .wait :: rest ∧
      stepsLeft t.stepPos < stepsLeft s.stepPos := by
  obtain ⟨u, hu, hbusy, hpos, hagenda⟩ := step_wait hs
  rw [if_pos hb] at hagenda
  obtain ⟨t, ht⟩ := everyStepAnswersANextState u
  have hengine : engineStep { u with agenda := .wait :: rest } = .next t := (step_engine hagenda).symm.trans ht
  have hrunning : u.stepPos ≠ .idle := hpos ▸ hc.busy_iff.mp hb
  refine ⟨t, fun n => ?_, ?_, step_agenda hagenda ht (.inl rfl), ?_⟩
  · rw [run_succ _ hu, run_succ _ ht]
  · exact everyStepKeepsControlInv u t (everyStepKeepsControlInv s u hc hu) ht
  · rw [← hpos]
    exact stepsLeft_engineStep_lt (s := { u with agenda := .wait :: rest }) hrunning hengine

/-- With fewer than `k` engine steps left, WAIT ends after at most `k` polls and the engine steps between them. -/
theorem run_wait {rest : List Event} (k : Nat) (hk : stepsLeft s.stepPos < k) (hc : ControlInv s)
    (hs : s.agenda = .wait :: rest) : ∃ n t, n < 2 * k ∧ run n s = .next t ∧ t.busy = false ∧ t.agenda = rest := by
  induction k generalizing s with
  | zero => exact absurd hk (Nat.not_lt_zero _)
  | succ k ih =>
    by_cases hb : s.busy = true
    · obtain ⟨u, hrun, hcu, hagenda, hlt⟩ := run_waitTurn hc hs hb
      obtain ⟨n, t, hn, ht, hend⟩ := ih (by omega) hcu hagenda
      exact ⟨n + 2, t, by omega, (hrun n).trans ht, hend⟩
    · obtain ⟨t, ht, hbusy, -, hagenda⟩ := step_wait hs
      rw [if_neg hb] at hagenda
      exact ⟨1, t, by omega, run_succ 0 ht, by simpa [hbusy] using hb, hagenda⟩

/-- Settles O10: a latched command has at most 18 engine steps left, so the 19th poll is the last. -/
theorem waitTerminates : Obligations.WaitTerminates := by
  intro s rest hc hs
  obtain ⟨n, t, hn, ht, hbusy, hagenda⟩ := run_wait 19 (Nat.lt_succ_of_le (stepsLeft_le s.stepPos)) hc hs
  exact ⟨n, t, by omega, ht, hbusy, hagenda⟩

end Sys2Proof.Proofs
